-- ==== Sys2Proof/Word.lean ====
section
/-! DEFINITION. The word types of the nessy control core: the command word of 30_encoding.md R90, the
address and byte of the Register Bus of 20_memory.md R60, and the two 7-bit quantities of 10_state.md R21. -/

namespace Sys2Proof

/-- A command word: 32 bits, bit 31 the most significant bit of `op` (R90, R76). -/
abbrev Word := BitVec 32

/-- A value on the Register Bus: one 8-bit register (R60). -/
abbrev Byte := BitVec 8

/-- An address on the Register Bus: 16 bits (R60). -/
abbrev Addr := BitVec 16

/-- A clamped note number, 0 to 127 (R24, R96). The silent marker −1 is `none` of `Option Note`. -/
abbrev Note := Fin 128

/-- A clamped velocity code, 0 to 127, standing for the velocity code / 127 (R25, R97). -/
abbrev Velocity := Fin 128

/-- `clamp(v, lo, hi)` of 00_scope.md R13, on integers. -/
def clamp (v lo hi : Int) : Int :=
  if v < lo then lo else if v > hi then hi else v

end Sys2Proof
end

