-- ==== Sys2Proof/Machine/Names.lean ====
section
/-! DEFINITION. The fixed sets of names of the spec: the eight channels and their families (10_state.md R22,
00_scope.md R18), the five allocation modes (10_state.md R28) and the 22 named registers (20_memory.md R65). -/

namespace Sys2Proof.Machine

/-- The eight channels, in the order that gives them the indices 0 to 7 (R22). -/
inductive Chan where
  | pulse1 | pulse2 | triangle | noise | sample | expPulse1 | expPulse2 | expSawtooth
deriving DecidableEq, Repr

/-- The five allocation modes, in the order that gives them the numbers 0 to 4 (R28). -/
inductive Mode where
  | fixedMono | roundRobin | pitchSplit | midiChannelSplit | unison
deriving DecidableEq, Repr

/-- The 22 named registers of R65. -/
inductive Reg where
  | p1Ctl | p1Plo | p1Phi
  | p2Ctl | p2Plo | p2Phi
  | triCtl | triPlo | triPhi
  | noiCtl | noiPer | noiLen
  | x1Ctl | x1Plo | x1Phi
  | x2Ctl | x2Plo | x2Phi
  | sawCtl | sawPlo | sawPhi
  | status
deriving DecidableEq, Repr

/-- The stable small integer index of a channel (R22). -/
def Chan.index : Chan → Fin 8
  | .pulse1 => 0
  | .pulse2 => 1
  | .triangle => 2
  | .noise => 3
  | .sample => 4
  | .expPulse1 => 5
  | .expPulse2 => 6
  | .expSawtooth => 7

/-- The channel an index names; none for 8 and above (R98). -/
def Chan.ofIndex : Nat → Option Chan
  | 0 => some .pulse1
  | 1 => some .pulse2
  | 2 => some .triangle
  | 3 => some .noise
  | 4 => some .sample
  | 5 => some .expPulse1
  | 6 => some .expPulse2
  | 7 => some .expSawtooth
  | _ => none

/-- The channels in ascending index, the order of every scan of the table (R213, R214, R215). -/
def Chan.all : List Chan :=
  [.pulse1, .pulse2, .triangle, .noise, .sample, .expPulse1, .expPulse2, .expSawtooth]

/-- The base channel group, indices 0 to 4 (R22). -/
def Chan.isBase (c : Chan) : Bool := c.index.val ≤ 4

/-- The melodic channels, the only ones a Channel Order may list (R18): every channel but Noise and
SampleChannel. -/
def Chan.isMelodic : Chan → Bool
  | .noise | .sample => false
  | .pulse1 | .pulse2 | .triangle | .expPulse1 | .expPulse2 | .expSawtooth => true

/-- The six melodic channels in ascending index (R18). -/
def Chan.melodic : List Chan :=
  [.pulse1, .pulse2, .triangle, .expPulse1, .expPulse2, .expSawtooth]

/-- `CTL(c)` of R65; SampleChannel has no named register. -/
def Chan.ctl : Chan → Option Reg
  | .pulse1 => some .p1Ctl
  | .pulse2 => some .p2Ctl
  | .triangle => some .triCtl
  | .noise => some .noiCtl
  | .sample => none
  | .expPulse1 => some .x1Ctl
  | .expPulse2 => some .x2Ctl
  | .expSawtooth => some .sawCtl

/-- `PLO(c)` of R65: the second register of a note-on recipe. -/
def Chan.plo : Chan → Option Reg
  | .pulse1 => some .p1Plo
  | .pulse2 => some .p2Plo
  | .triangle => some .triPlo
  | .noise => some .noiPer
  | .sample => none
  | .expPulse1 => some .x1Plo
  | .expPulse2 => some .x2Plo
  | .expSawtooth => some .sawPlo

/-- `PHI(c)` of R65: the third register of a note-on recipe. -/
def Chan.phi : Chan → Option Reg
  | .pulse1 => some .p1Phi
  | .pulse2 => some .p2Phi
  | .triangle => some .triPhi
  | .noise => some .noiLen
  | .sample => none
  | .expPulse1 => some .x1Phi
  | .expPulse2 => some .x2Phi
  | .expSawtooth => some .sawPhi

/-- The number of a mode (R28). -/
def Mode.number : Mode → Nat
  | .fixedMono => 0
  | .roundRobin => 1
  | .pitchSplit => 2
  | .midiChannelSplit => 3
  | .unison => 4

/-- The mode a number names; none for 5 and above (R98). -/
def Mode.ofNumber : Nat → Option Mode
  | 0 => some .fixedMono
  | 1 => some .roundRobin
  | 2 => some .pitchSplit
  | 3 => some .midiChannelSplit
  | 4 => some .unison
  | _ => none

/-- The place of a named register in the register image: R65's table, row by row. -/
def Reg.index : Reg → Fin 22
  | .p1Ctl => 0
  | .p1Plo => 1
  | .p1Phi => 2
  | .p2Ctl => 3
  | .p2Plo => 4
  | .p2Phi => 5
  | .triCtl => 6
  | .triPlo => 7
  | .triPhi => 8
  | .noiCtl => 9
  | .noiPer => 10
  | .noiLen => 11
  | .x1Ctl => 12
  | .x1Plo => 13
  | .x1Phi => 14
  | .x2Ctl => 15
  | .x2Plo => 16
  | .x2Phi => 17
  | .sawCtl => 18
  | .sawPlo => 19
  | .sawPhi => 20
  | .status => 21

/-- The 22 named registers in R65's order. -/
def Reg.all : List Reg :=
  [.p1Ctl, .p1Plo, .p1Phi, .p2Ctl, .p2Plo, .p2Phi, .triCtl, .triPlo, .triPhi, .noiCtl, .noiPer, .noiLen,
   .x1Ctl, .x1Plo, .x1Phi, .x2Ctl, .x2Plo, .x2Phi, .sawCtl, .sawPlo, .sawPhi, .status]

end Sys2Proof.Machine
end

