-- ==== Sys2Proof/Config.lean ====
section
/-! DEFINITION. The implementation parameters of 00_scope.md R10: every row whose kind is `parameter`, as one
structure that every operation of the machine takes as an argument. The defaults are in
Machine/Defaults.lean. -/

namespace Sys2Proof

/-- The open parameters (R10, U12). A field's width is the width R10 or the byte layout gives it. -/
structure Config where
  /-- `MCLK_NUM`, numerator of the master clock in Hz (D7). -/
  mclkNum : Nat
  /-- `MCLK_DEN`, denominator of the master clock (D7). -/
  mclkDen : Nat
  /-- `SAW_DIVISOR`, period divisor of ExpSawtooth (D9). -/
  sawDivisor : Nat
  /-- `SAW_RATE_SHIFT`, left shift from the 4-bit volume to the 6-bit rate (D9). -/
  sawRateShift : Nat
  /-- `ENV_OFF`, the envelope-disable and length-counter-disable bits of a control byte (D12). -/
  envOff : Byte
  /-- `LEN_LOAD`, the 5-bit length-counter load field (D12). -/
  lenLoad : BitVec 5
  /-- `TRI_ON_CTL`, the Triangle control byte at note-on (D12). -/
  triOnCtl : Byte
  /-- `TRI_OFF_CTL`, the Triangle control byte at note-off (D12). -/
  triOffCtl : Byte
  /-- `EXP_OFF`, the "channel off" byte (D12). -/
  expOff : Byte
  /-- `ADDR(reg)`, the bus address of a named register (D11). -/
  addr : Machine.Reg → Addr
  /-- `HINT_MAP`: primary and fallback channel of a hint, or absent (D18). -/
  hintMap : BitVec 4 → Option (Machine.Chan × Machine.Chan)

end Sys2Proof
end

