-- ==== Sys2Proof/Syntax.lean ====
section
/-! DEFINITION. The commands of 30_encoding.md R100, one constructor per row of the opcode table, with the operand
fields the decoder examines (R91 to R95) as raw bits. A field that no rule examines (R102) is no operand. -/

namespace Sys2Proof

/-- The 14 commands. An operand has the width of its field; what it means is Machine/Operands.lean's. -/
inductive Instr where
  /-- INIT `sr` (format I, R122). -/
  | init (sr : BitVec 24)
  /-- TICK `n` (format I, R124). -/
  | tick (n : BitVec 24)
  /-- NOTE_ON `hint, note, vel` (format N, R205). -/
  | noteOn (hint : BitVec 4) (note vel : BitVec 8)
  /-- NOTE_OFF `hint, note` (format N, R213; the assembler syntax of R104 has the hint, no rule examines it). -/
  | noteOff (hint : BitVec 4) (note : BitVec 8)
  /-- ALL_NOTES_OFF (format Z, R214). -/
  | allNotesOff
  /-- GET_CHANNEL `note` (format N, R215). -/
  | getChannel (note : BitVec 8)
  /-- SET_CHANNEL_ENABLED `ch, b` (format AB, R181). -/
  | setChannelEnabled (chn b : BitVec 8)
  /-- SET_PULSE_DUTY `idx, level` (format AB, R154). -/
  | setPulseDuty (idx level : BitVec 8)
  /-- SET_NOISE_MODE `b` (format A, R156). -/
  | setNoiseMode (b : BitVec 8)
  /-- SET_EXPANSION_ENABLED `b` (format A, R182). -/
  | setExpansionEnabled (b : BitVec 8)
  /-- SET_EXP_PULSE_DUTY `idx, level` (format AB, R155). -/
  | setExpPulseDuty (idx level : BitVec 8)
  /-- SET_ALLOC_MODE `m` (format A, R216). -/
  | setAllocMode (m : BitVec 8)
  /-- SET_SPLIT_POINT `note` (format A, R217). -/
  | setSplitPoint (note : BitVec 8)
  /-- SET_CHANNEL_ORDER `c0, c1, c2, c3, c4, c5` (format I, R218): six 4-bit entries in one immediate. -/
  | setChannelOrder (imm : BitVec 24)
deriving DecidableEq, Repr

end Sys2Proof
end

