-- ==== Sys2Proof/WellFormed.lean ====
section
/-! DEFINITION. Well-formedness. A command has no check beyond its operand widths, which its type carries: "No
word is illegal" (30_encoding.md R103). What the spec does ask a model to check are the parameters the core is
built with, 93_implementation_defined.md U11 and U12: one named check each. -/

namespace Sys2Proof

/-- Every command with operands of the right widths is well formed (R103: every 32-bit word decodes to a command
or to the reserved no-op, and every operand field decodes to a value). -/
def Instr.wellFormed : Instr → Bool
  | .init _ | .tick _ | .noteOn _ _ _ | .noteOff _ _ | .allNotesOff | .getChannel _
  | .setChannelEnabled _ _ | .setPulseDuty _ _ | .setNoiseMode _ | .setExpansionEnabled _
  | .setExpPulseDuty _ _ | .setAllocMode _ | .setSplitPoint _ | .setChannelOrder _ => true

namespace Config

/-- `MCLK` is a positive rational: `MCLK_NUM ≥ 1` and `MCLK_DEN ≥ 1` (U12). -/
def clockPositive (cfg : Config) : Bool := 1 ≤ cfg.mclkNum && 1 ≤ cfg.mclkDen

/-- `MCLK_NUM < 2^32 · MCLK_DEN`, so that every `Advance` count fits `ADV_W` (U11). -/
def clockFitsAdvance (cfg : Config) : Bool := cfg.mclkNum < 2 ^ 32 * cfg.mclkDen

/-- `SAW_DIVISOR ≥ 1` (U12). -/
def sawDivisorPositive (cfg : Config) : Bool := 1 ≤ cfg.sawDivisor

/-- `SAW_RATE_SHIFT ≤ 2` (U12). -/
def sawShiftSmall (cfg : Config) : Bool := cfg.sawRateShift ≤ 2

/-- `ENV_OFF & 0xCF = 0`: bits 5:4 only (U12). -/
def envOffBits (cfg : Config) : Bool := cfg.envOff &&& 0xCF == 0

/-- `ADDR` is injective (R66, U12). -/
def addrInjective (cfg : Config) : Bool :=
  Machine.Reg.all.all fun r => Machine.Reg.all.all fun q => cfg.addr r != cfg.addr q || r == q

/-- What U12 asks of one entry of `HINT_MAP`: the primary is not SampleChannel and the fallback is one of Pulse1,
Pulse2, Triangle and Noise. -/
def hintEntryLegal : Option (Machine.Chan × Machine.Chan) → Bool
  | none => true
  | some (primary, fallback) => primary != .sample && fallback.index.val ≤ 3

/-- Every entry of `HINT_MAP` is legal (U12, R219). -/
def hintMapLegal (cfg : Config) : Bool :=
  (List.range 16).all fun h => hintEntryLegal (cfg.hintMap (BitVec.ofNat 4 h))

/-- The constraints a model should demand of its parameters (U11, U12). The widths of `LEN_LOAD` and of the three
byte constants are their types'. -/
def wellFormed (cfg : Config) : Bool :=
  cfg.clockPositive && cfg.clockFitsAdvance && cfg.sawDivisorPositive && cfg.sawShiftSmall
    && cfg.envOffBits && cfg.addrInjective && cfg.hintMapLegal

end Config

end Sys2Proof
end

