-- ==== Sys2Proof/Decode.lean ====
section
/-! DEFINITION. Decoding and encoding of command words: 30_encoding.md R90 to R95, R100 to R104. Decoding is total
(R103): every word is one of the 14 commands or has a reserved operation code, which is named. -/

namespace Sys2Proof

/-- What a word decodes to (R103): a command, or a reserved operation code, rejected by its number (R101). -/
inductive Decoded where
  | command (i : Instr)
  | reserved (op : BitVec 8)
deriving DecidableEq, Repr

/-- `op`, bits 31:24 of a command word (R90). -/
def opField (w : Word) : BitVec 8 := w.extractLsb' 24 8

/-- `imm`, bits 23:0 of formats I (R92). -/
def immField (w : Word) : BitVec 24 := w.extractLsb' 0 24

/-- `hint`, bits 23:20 of format N (R91). -/
def hintField (w : Word) : BitVec 4 := w.extractLsb' 20 4

/-- `note` of format N and `a` of format AB, bits 15:8 (R91, R93). -/
def highByteField (w : Word) : BitVec 8 := w.extractLsb' 8 8

/-- `vel` of format N, `b` of format AB and `a` of format A, bits 7:0 (R91, R93, R94). -/
def lowByteField (w : Word) : BitVec 8 := w.extractLsb' 0 8

/-- The opcode map of R100; "the payload never takes part in selecting the command". -/
def decode (w : Word) : Decoded :=
  match (opField w).toNat with
  | 0x01 => .command (.init (immField w))
  | 0x02 => .command (.tick (immField w))
  | 0x10 => .command (.noteOn (hintField w) (highByteField w) (lowByteField w))
  | 0x11 => .command (.noteOff (hintField w) (highByteField w))
  | 0x12 => .command .allNotesOff
  | 0x13 => .command (.getChannel (highByteField w))
  | 0x20 => .command (.setChannelEnabled (highByteField w) (lowByteField w))
  | 0x21 => .command (.setPulseDuty (highByteField w) (lowByteField w))
  | 0x22 => .command (.setNoiseMode (lowByteField w))
  | 0x23 => .command (.setExpansionEnabled (lowByteField w))
  | 0x24 => .command (.setExpPulseDuty (highByteField w) (lowByteField w))
  | 0x25 => .command (.setAllocMode (lowByteField w))
  | 0x26 => .command (.setSplitPoint (lowByteField w))
  | 0x27 => .command (.setChannelOrder (immField w))
  | _ => .reserved (opField w)

/-- The operation code of a command (R100). -/
def opcode : Instr → BitVec 8
  | .init _ => 0x01
  | .tick _ => 0x02
  | .noteOn _ _ _ => 0x10
  | .noteOff _ _ => 0x11
  | .allNotesOff => 0x12
  | .getChannel _ => 0x13
  | .setChannelEnabled _ _ => 0x20
  | .setPulseDuty _ _ => 0x21
  | .setNoiseMode _ => 0x22
  | .setExpansionEnabled _ => 0x23
  | .setExpPulseDuty _ _ => 0x24
  | .setAllocMode _ => 0x25
  | .setSplitPoint _ => 0x26
  | .setChannelOrder _ => 0x27

/-- The 24-bit payload an assembler writes, ignored bits zero (R102, R104). -/
def payload : Instr → BitVec 24
  | .init sr => sr
  | .tick n => n
  | .noteOn hint note vel => hint ++ 0#4 ++ note ++ vel
  | .noteOff hint note => hint ++ 0#4 ++ note ++ 0#8
  | .allNotesOff => 0#24
  | .getChannel note => 0#8 ++ note ++ 0#8
  | .setChannelEnabled chn b => 0#8 ++ chn ++ b
  | .setPulseDuty idx level => 0#8 ++ idx ++ level
  | .setNoiseMode b => 0#16 ++ b
  | .setExpansionEnabled b => 0#16 ++ b
  | .setExpPulseDuty idx level => 0#8 ++ idx ++ level
  | .setAllocMode m => 0#16 ++ m
  | .setSplitPoint note => 0#16 ++ note
  | .setChannelOrder imm => imm

/-- The command word of a command (R104): operation code, then payload. -/
def encode (i : Instr) : Word := opcode i ++ payload i

/-- The bits of a command's word that are not ignored (R91 to R95, R102): the operation code and the examined
fields. NOTE_OFF's hint is kept because R104's syntax has it; its `vel` and GET_CHANNEL's `hint` and `vel` are not. -/
def significantBits : Instr → Word
  | .init _ | .tick _ | .setChannelOrder _ => 0xFFFFFFFF
  | .noteOn _ _ _ => 0xFFF0FFFF
  | .noteOff _ _ => 0xFFF0FF00
  | .allNotesOff => 0xFF000000
  | .getChannel _ => 0xFF00FF00
  | .setChannelEnabled _ _ | .setPulseDuty _ _ | .setExpPulseDuty _ _ => 0xFF00FFFF
  | .setNoiseMode _ | .setExpansionEnabled _ | .setAllocMode _ | .setSplitPoint _ => 0xFF0000FF

/-- The word of a table row: `w`'s low `nbits` bits as one command word, the rest zero. A command word is one
parallel 32-bit word (R76), so the table's bit numbers are the word's own. -/
def wordOfTable (nbits w : Nat) : Word := BitVec.ofNat 32 (w % 2 ^ nbits)

/-- What the decoder reads from a word given in the opcode table's bit numbering; none for a reserved `op`. -/
def decodeTableWord (nbits w : Nat) : Option Instr :=
  match decode (wordOfTable nbits w) with
  | .command i => some i
  | .reserved _ => none

end Sys2Proof
end

