-- ==== Sys2Proof/Machine/Defaults.lean ====
section
/-! DEFINITION. The default values of the parameters: 00_scope.md R10, 20_memory.md R66 (the address map),
43_allocator.md R212 (the hint map). -/

namespace Sys2Proof.Machine

/-- The default address map of R66. -/
def defaultAddr : Reg → Addr
  | .p1Ctl => 0x4000
  | .p1Plo => 0x4002
  | .p1Phi => 0x4003
  | .p2Ctl => 0x4004
  | .p2Plo => 0x4006
  | .p2Phi => 0x4007
  | .triCtl => 0x4008
  | .triPlo => 0x400A
  | .triPhi => 0x400B
  | .noiCtl => 0x400C
  | .noiPer => 0x400E
  | .noiLen => 0x400F
  | .x1Ctl => 0x9000
  | .x1Plo => 0x9001
  | .x1Phi => 0x9002
  | .x2Ctl => 0xA000
  | .x2Plo => 0xA001
  | .x2Phi => 0xA002
  | .sawCtl => 0xB000
  | .sawPlo => 0xB001
  | .sawPhi => 0xB002
  | .status => 0x4015

/-- The default `HINT_MAP` of R212: (primary, fallback); every other hint is absent. -/
def defaultHintMap (hint : BitVec 4) : Option (Chan × Chan) :=
  match hint.toNat with
  | 0 => some (.pulse1, .pulse1)
  | 1 => some (.pulse2, .pulse2)
  | 2 => some (.triangle, .triangle)
  | 3 => some (.expPulse1, .pulse1)
  | 4 => some (.expPulse2, .pulse2)
  | 5 => some (.expSawtooth, .triangle)
  | 9 => some (.noise, .noise)
  | _ => none

/-- The default configuration, R10's column `value`. DESIGN CHOICE, unsafe: `exec` is the machine built with
these values (log 5). -/
def defaultConfig : Config where
  mclkNum := 17897727
  mclkDen := 10
  sawDivisor := 16
  sawRateShift := 1
  envOff := 0x30
  lenLoad := 31
  triOnCtl := 0xFF
  triOffCtl := 0x80
  expOff := 0x00
  addr := defaultAddr
  hintMap := defaultHintMap

end Sys2Proof.Machine
end

