-- ==== Sys2Proof/Machine/State.lean ====
section
/-! DEFINITION. The state of the core (10_state.md R20 to R32), as plain data, its reset values (R35), and the
reasons a step could stop. -/

namespace Sys2Proof.Machine

/-- One entry of the Channel State Table (R21). -/
structure Entry where
  /-- `enabled` (R23). -/
  enabled : Bool
  /-- `note` (R24): `none` is the silent marker −1. -/
  note : Option Note
  /-- `vel` (R25). -/
  vel : Velocity
  /-- `stamp` (R26), unbounded (R10, U6). -/
  stamp : Nat
deriving DecidableEq, Repr

/-- One event of the output trace (00_scope.md R15, R16; 20_memory.md R75; 30_encoding.md R99). -/
inductive Event where
  /-- `MemWrite(addr, 1, v)`: one write on the Register Bus. -/
  | memWrite (addr : Addr) (v : Byte)
  /-- `ConfigureClock(m, s)`: the master clock as numerator and denominator, and the sample rate. -/
  | configureClock (num den : Nat) (sr : BitVec 24)
  /-- `ResetState`. -/
  | resetState
  /-- `Advance(n)`: `n` master-clock pulses. -/
  | advance (n : Nat)
  /-- `RenderFrame`. -/
  | renderFrame
  /-- `Respond(v)`: the signed 8-bit value on the response port, −1 as 0xFF. -/
  | respond (v : BitVec 8)
deriving DecidableEq, Repr

/-- What the outside world presents to the core: a word on the command port (R106) or a pulse of the reset input
(R280). -/
inductive PortInput where
  | command (w : Word)
  | reset
deriving DecidableEq, Repr

/-- The whole state of the core (R20), then the model's own two lists (log 1, log 2). -/
structure State where
  /-- `ch[0..7]`, the Channel State Table (R21). -/
  ch : Vector Entry 8
  /-- `mode` (R28). -/
  mode : Mode
  /-- `split` (R28). -/
  split : Note
  /-- `order[0..5]` (R28). -/
  order : Vector Chan 6
  /-- `duty[0..1]` (R28). -/
  duty : Vector (BitVec 2) 2
  /-- `xduty[0..1]` (R28). -/
  xduty : Vector (BitVec 3) 2
  /-- `noiseMode` (R28). -/
  noiseMode : Bool
  /-- `expEn` (R28). -/
  expEn : Bool
  /-- `sr` (R29). -/
  sr : BitVec 24
  /-- `acc` (R29), a natural number (R121, R127). -/
  acc : Nat
  /-- `img`, the register image (R30), indexed by `Reg.index`. -/
  img : Vector Byte 22
  /-- `stampCounter` (R31), unbounded (R10, U6). -/
  stampCounter : Nat
  /-- `init` (R32). -/
  init : Bool
  /-- `fault` (R32). -/
  fault : Bool
  /-- The model's own: what the host presents next, first to come first (R33, R34; log 1). -/
  input : List PortInput
  /-- The model's own: the output trace so far, oldest event first (R16, R80; log 2). -/
  trace : List Event
deriving DecidableEq, Repr

/-- A reason the machine stops with a fault. There is none: the one exception of the spec, `NotInitialised`, has an
entry the spec describes (60_exceptions.md R254) and is a next state, and nothing else is an exception (R251). -/
inductive Fault where
deriving DecidableEq, Repr

/-- A reason the machine has no meaning for an instruction. -/
inductive Refusal where
  /-- Raised by an arm of `exec` whose instruction has no meaning yet (safe); no arm raises it now. -/
  | notModelled (mnemonic : String)
deriving DecidableEq, Repr

/-- One entry at reset (R35): silent, velocity 0, stamp 0. -/
def Entry.atReset (enabled : Bool) : Entry :=
  { enabled := enabled, note := none, vel := 0, stamp := 0 }

/-- The machine right after hardware reset (R35, R280), with no input waiting and nothing sent yet. -/
def State.reset : State where
  ch := #v[Entry.atReset true, Entry.atReset true, Entry.atReset true, Entry.atReset true,
           Entry.atReset false, Entry.atReset true, Entry.atReset true, Entry.atReset true]
  mode := .roundRobin
  split := 60
  order := #v[.pulse1, .pulse2, .triangle, .expPulse1, .expPulse2, .expSawtooth]
  duty := #v[0, 0]
  xduty := #v[0, 0]
  noiseMode := false
  expEn := false
  sr := 0
  acc := 0
  img := Vector.replicate 22 0
  stampCounter := 0
  init := false
  fault := false
  input := []
  trace := []

end Sys2Proof.Machine
end

