-- ==== Sys2Proof/Machine/Ops.lean ====
section
/-! DEFINITION. The named operations over the state that every command uses: the one home of the table and the
image, the output primitives (00_scope.md R15), the Register Bus write (20_memory.md R64), taking the one
exception and hardware reset (60_exceptions.md R254, 70_reset_and_hazards.md R280), and the `fault` test that
begins every command (R254). -/

namespace Sys2Proof.Machine

/-! ### The Channel State Table and the register image -/

/-- `ch[c]` (R14). -/
def State.entry (s : State) (c : Chan) : Entry := s.ch.get c.index

/-- `ch[c] <- e` (R14). -/
def State.setEntry (s : State) (c : Chan) (e : Entry) : State :=
  { s with ch := s.ch.set c.index.val e c.index.isLt }

/-- `img[r]` (R30). -/
def State.image (s : State) (r : Reg) : Byte := s.img.get r.index

/-- `img[r] <- v` (R30). -/
def State.setImage (s : State) (r : Reg) (v : Byte) : State :=
  { s with img := s.img.set r.index.val v r.index.isLt }

/-- `for every named register r: img[r] <- 0x00` (R122). -/
def State.clearImage (s : State) : State :=
  { s with img := Vector.replicate 22 0 }

/-- A channel is sounding when its `note` is not −1 (R17). -/
def State.sounding (s : State) (c : Chan) : Bool := (s.entry c).note.isSome

/-- The active melodic set (R36, R201): the entries of `order`, in order, that are base channels or, while the
expansion unit is on, any. -/
def State.active (s : State) : List Chan :=
  s.order.toList.filter fun c => c.index.val < 3 || s.expEn

/-! ### Output -/

/-- Appends one event to the output trace (R15). -/
def emit (e : Event) (s : State) : State := { s with trace := s.trace ++ [e] }

/-- `BusWrite(r, v)`: `img[r] <- v; MemWrite(ADDR(r), 1, v)` (R64). -/
def busWrite (cfg : Config) (r : Reg) (v : Byte) (s : State) : State :=
  emit (.memWrite (cfg.addr r) v) (s.setImage r v)

/-- The bus writes of a recipe, in the order listed (R146, R80). -/
def busWrites (cfg : Config) (ws : List (Reg × Byte)) (s : State) : State :=
  ws.foldl (fun s w => busWrite cfg w.1 w.2 s) s

/-- The response value (R99): the channel's index, or −1, which is 0xFF on the 8-bit port. -/
def responseValue : Option Chan → BitVec 8
  | some c => BitVec.ofNat 8 c.index.val
  | none => 0xFF

/-- `Respond(v)` (R15, R99). -/
def respond (c : Option Chan) (s : State) : State := emit (.respond (responseValue c)) s

/-! ### The exception and reset -/

/-- The causes of an exception (R250): one. -/
inductive Cause where
  | notInitialised
deriving DecidableEq, Repr

/-- The cause code (R250). -/
def Cause.code : Cause → Nat
  | .notInitialised => 1

/-- Taking an exception (R254): `fault <- 1` and nothing else; the trace is left as it is. `fault` is the only record
there is: "It records nothing but the cause", and there is one cause. -/
def takeException : Cause → State → State
  | .notInitialised, s => { s with fault := true }

/-- The cause the state records (R250, R254). -/
def State.recordedCause (s : State) : Option Cause :=
  if s.fault then some .notInitialised else none

/-- Hardware reset (R280), the only way out of the exception (R255): every piece of the spec's state takes its R35
value; nothing is written, requested or answered. What was sent before and what the host sends after are not the
core's to change (log 11). -/
def hardwareReset (s : State) : State :=
  { State.reset with input := s.input, trace := s.trace }

/-- The test that begins every command (R254): while `fault` = 1 the command does nothing; otherwise its effect. -/
def unlessHalted (effect : State → State) (s : State) : Host.Outcome State Fault Refusal :=
  if s.fault then .next s else .next (effect s)

end Sys2Proof.Machine
end

