-- ==== Sys2Proof/Machine/Operands.lean ====
section
/-! DEFINITION. Operand decoding: 30_encoding.md R96 to R98. -/

namespace Sys2Proof.Machine

/-- A note operand (R96): `clamp(sext_8(field), 0, 127)`. -/
def noteOperand (field : BitVec 8) : Note := Fin.ofNat 128 (clamp field.toInt 0 127).toNat

/-- A velocity operand (R97): `min(field, 127)`. -/
def velocityOperand (field : BitVec 8) : Velocity := Fin.ofNat 128 (min field.toNat 127)

/-- A boolean operand (R98): true when the field is non-zero. -/
def boolOperand (field : BitVec 8) : Bool := field != 0

/-- A channel index (R98): none for 8 to 255. -/
def channelOperand (field : BitVec 8) : Option Chan := Chan.ofIndex field.toNat

/-- A pulse index (R98): none for 2 to 255. -/
def pulseIndexOperand (field : BitVec 8) : Option (Fin 2) :=
  match field.toNat with
  | 0 => some 0
  | 1 => some 1
  | _ => none

/-- A base duty level (R98): clamped to 3. -/
def dutyOperand (field : BitVec 8) : BitVec 2 := BitVec.ofNat 2 (min field.toNat 3)

/-- An expansion duty level (R98): clamped to 7. -/
def expDutyOperand (field : BitVec 8) : BitVec 3 := BitVec.ofNat 3 (min field.toNat 7)

/-- A mode number (R98): none for 5 to 255. -/
def modeOperand (field : BitVec 8) : Option Mode := Mode.ofNumber field.toNat

/-- `entry[j] = imm[23 − 4j : 20 − 4j]` of SET_CHANNEL_ORDER (R98). -/
def orderEntry (imm : BitVec 24) (j : Nat) : BitVec 4 := imm.extractLsb' (20 - 4 * j) 4

/-- The channel an entry of SET_CHANNEL_ORDER names: one of the six melodic channels, or none (R98). -/
def melodicEntry (field : BitVec 4) : Option Chan :=
  (Chan.ofIndex field.toNat).filter Chan.isMelodic

/-- The Channel Order of SET_CHANNEL_ORDER (R98, R218): the six entries when they are a permutation of the six
melodic channels, that is when each is melodic and no two are equal; none otherwise. -/
def orderOperand (imm : BitVec 24) : Option (Vector Chan 6) := do
  let c0 ← melodicEntry (orderEntry imm 0)
  let c1 ← melodicEntry (orderEntry imm 1)
  let c2 ← melodicEntry (orderEntry imm 2)
  let c3 ← melodicEntry (orderEntry imm 3)
  let c4 ← melodicEntry (orderEntry imm 4)
  let c5 ← melodicEntry (orderEntry imm 5)
  if [c0, c1, c2, c3, c4, c5].Nodup then some #v[c0, c1, c2, c3, c4, c5] else none

end Sys2Proof.Machine
end

