-- ==== Sys2Proof/Machine/Flags.lean ====
section
/-! DEFINITION. The flags of the core: the two flags `init` and `fault` (10_state.md R32), the per-channel enable
flags and the status mask computed from them (R36, 42_channel_enable.md R180). There are no condition codes
(R32): no command sets a flag as a side effect of arithmetic. -/

namespace Sys2Proof.Machine

/-- A flag as the number 0 or 1 in an 8-bit field. -/
def flagByte (b : Bool) : Byte := if b then 1 else 0

/-- `ch[c].enabled` (R23). -/
def State.isEnabled (s : State) (c : Chan) : Bool := (s.entry c).enabled

/-- `statusMask` (R36): bit i is `ch[i].enabled` for the base channel group, bits 7 to 5 zero. -/
def State.statusMask (s : State) : Byte :=
  flagByte (s.isEnabled .pulse1)
    ||| flagByte (s.isEnabled .pulse2) <<< 1
    ||| flagByte (s.isEnabled .triangle) <<< 2
    ||| flagByte (s.isEnabled .noise) <<< 3
    ||| flagByte (s.isEnabled .sample) <<< 4

/-- `BusWrite(STATUS, statusMask)`: the whole status register in one write (R180). -/
def writeStatus (cfg : Config) (s : State) : State := busWrite cfg .status s.statusMask s

/-- `ch[c].enabled <- b` (R23). -/
def State.setEnabled (s : State) (c : Chan) (b : Bool) : State :=
  s.setEntry c { s.entry c with enabled := b }

/-- The core is initialised: a TICK is legal (R32, R250). -/
def State.isInitialised (s : State) : Bool := s.init

end Sys2Proof.Machine
end

