-- ==== Sys2Proof/Machine/Recipes.lean ====
section
/-! DEFINITION. The encoder's pure functions and the note-on and note-off recipes: 41_encoder.md R140 to R152, byte
layouts of 20_memory.md R67 to R73. -/

namespace Sys2Proof.Machine

/-! ### Period -/

/-- `A` of R141: `(2 · MCLK_NUM)^12 · 2^max(69 − n, 0)`. -/
def periodNum (cfg : Config) (n : Note) : Nat := (2 * cfg.mclkNum) ^ 12 * 2 ^ (69 - n.val)

/-- `B` of R141: `(440 · d · MCLK_DEN)^12 · 2^max(n − 69, 0)`. -/
def periodDen (cfg : Config) (n : Note) (d : Nat) : Nat := (440 * d * cfg.mclkDen) ^ 12 * 2 ^ (n.val - 69)

/-- `(2k + 1)^12 · B ≤ A`, the test of R141. -/
def periodFits (a b k : Nat) : Bool := (2 * k + 1) ^ 12 * b ≤ a

/-- The largest `k' ≥ k` below `k + 2^bits` that passes the test when `k` does, found bit by bit from the top (the test
is monotone in `k`). -/
def largestFit (a b : Nat) : Nat → Nat → Nat
  | 0, k => k
  | bits + 1, k =>
    if periodFits a b (k + 2 ^ bits) then largestFit a b bits (k + 2 ^ bits) else largestFit a b bits k

/-- `praw(n, d)` of R141: the largest `k ≥ 0` with `(2k + 1)^12 · B ≤ A`, or 0 if there is none. No `k` of more bits
than the search has can pass. -/
def praw (cfg : Config) (n : Note) (d : Nat) : Nat :=
  largestFit (periodNum cfg n) (periodDen cfg n d)
    (Nat.log2 (periodNum cfg n / periodDen cfg n d) / 12 + 1) 0

/-- What gives a channel its pitch (R142): the divisor and the largest period. -/
structure Tone where
  divisor : Nat
  maxPeriod : Nat
deriving DecidableEq, Repr

/-- Pulse1 and Pulse2 (R142): `DIV_PULSE`, `MAXP_BASE` of R10. -/
def basePulseTone : Tone := ⟨16, 2047⟩

/-- Triangle (R142): `DIV_TRI`, `MAXP_BASE` of R10. -/
def triangleTone : Tone := ⟨32, 2047⟩

/-- ExpPulse1 and ExpPulse2 (R142): `DIV_PULSE`, `MAXP_EXP` of R10. -/
def expPulseTone : Tone := ⟨16, 4095⟩

/-- ExpSawtooth (R142): `SAW_DIVISOR`, `MAXP_EXP` of R10. -/
def sawtoothTone (cfg : Config) : Tone := ⟨cfg.sawDivisor, 4095⟩

/-- The table of R142; Noise and SampleChannel have no period. -/
def Chan.tone (cfg : Config) : Chan → Option Tone
  | .pulse1 | .pulse2 => some basePulseTone
  | .triangle => some triangleTone
  | .noise | .sample => none
  | .expPulse1 | .expPulse2 => some expPulseTone
  | .expSawtooth => some (sawtoothTone cfg)

/-- `min(praw(n, divisor), maxPeriod)` (R141). -/
def tonePeriod (cfg : Config) (n : Note) (t : Tone) : Nat := min (praw cfg n t.divisor) t.maxPeriod

/-- `period(n, c)` (R141), for the channels that have one. -/
def period (cfg : Config) (n : Note) (c : Chan) : Option Nat := (c.tone cfg).map (tonePeriod cfg n)

/-! ### Noise index, volume, sawtooth rate -/

/-- `noiseIdx(n) = clamp(15 − (n div 8), 0, 15)` (R143). -/
def noiseIdx (n : Note) : BitVec 4 := BitVec.ofNat 4 (clamp (15 - ((n.val / 8 : Nat) : Int)) 0 15).toNat

/-- `vol4(v) = (30 · v + 127) div 254` (R144). -/
def vol4 (v : Velocity) : BitVec 4 := BitVec.ofNat 4 ((30 * v.val + 127) / 254)

/-- `sawRate(v) = (vol4(v) << SAW_RATE_SHIFT) & 0x3F` (R145), the shift without truncation (R12). -/
def sawRate (cfg : Config) (v : Velocity) : BitVec 6 :=
  BitVec.ofNat 6 (((vol4 v).toNat <<< cfg.sawRateShift) &&& 0x3F)

/-! ### Bytes -/

/-- Base pulse control byte (R67): `duty << 6 | ENV_OFF | vol`. -/
def pulseCtlByte (cfg : Config) (duty : BitVec 2) (vol : BitVec 4) : Byte :=
  duty ++ 0#6 ||| cfg.envOff ||| 0#4 ++ vol

/-- Period-low byte, `p[7:0]` (R68, R72). -/
def periodLowByte (p : Nat) : Byte := BitVec.ofNat 8 p

/-- Base period-high and length byte (R68): `LEN_LOAD << 3 | p[10:8]`. -/
def basePeriodHighByte (cfg : Config) (p : Nat) : Byte := cfg.lenLoad ++ BitVec.ofNat 3 (p >>> 8)

/-- Noise control byte (R70): `ENV_OFF | vol`. -/
def noiseCtlByte (cfg : Config) (vol : BitVec 4) : Byte := cfg.envOff ||| 0#4 ++ vol

/-- Noise rate byte (R70): `noiseMode << 7 | idx`. -/
def noisePerByte (shortPeriod : Bool) (idx : BitVec 4) : Byte := BitVec.ofBool shortPeriod ++ 0#3 ++ idx

/-- Noise length byte (R70): `LEN_LOAD << 3`. -/
def noiseLenByte (cfg : Config) : Byte := cfg.lenLoad ++ 0#3

/-- Expansion pulse control byte (R72): `xduty << 4 | vol`. -/
def expPulseCtlByte (xduty : BitVec 3) (vol : BitVec 4) : Byte := 0#1 ++ xduty ++ vol

/-- Expansion period-high byte (R72): `enabled << 7 | p[11:8]`. -/
def expPeriodHighByte (enabled : Bool) (p : Nat) : Byte := BitVec.ofBool enabled ++ 0#3 ++ BitVec.ofNat 4 (p >>> 8)

/-- Sawtooth control byte (R73): the 6-bit rate, bits 7:6 zero. -/
def sawCtlByte (rate : BitVec 6) : Byte := 0#2 ++ rate

/-! ### Recipes -/

/-- The writes of a base pulse's note-on (R147): CTL, PLO, PHI. -/
def basePulseOn (cfg : Config) (ctl lo hi : Reg) (duty : BitVec 2) (n : Note) (v : Velocity) : List (Reg × Byte) :=
  let p := tonePeriod cfg n basePulseTone
  [(ctl, pulseCtlByte cfg duty (vol4 v)), (lo, periodLowByte p), (hi, basePeriodHighByte cfg p)]

/-- The writes of an expansion channel's note-on (R150): CTL, PLO, PHI. -/
def expansionOn (ctl lo hi : Reg) (ctlByte : Byte) (enabled : Bool) (p : Nat) : List (Reg × Byte) :=
  [(ctl, ctlByte), (lo, periodLowByte p), (hi, expPeriodHighByte enabled p)]

/-- `NoteOnRecipe(c)` as a list of writes (R146 to R150) for the voice `n`, `v` just bound there; empty for SampleChannel
(R151, log 8). -/
def noteOnWrites (cfg : Config) (s : State) (n : Note) (v : Velocity) : Chan → List (Reg × Byte)
  | .pulse1 => basePulseOn cfg .p1Ctl .p1Plo .p1Phi (s.duty.get 0) n v
  | .pulse2 => basePulseOn cfg .p2Ctl .p2Plo .p2Phi (s.duty.get 1) n v
  | .triangle =>
    let p := tonePeriod cfg n triangleTone
    [(.triCtl, cfg.triOnCtl), (.triPlo, periodLowByte p), (.triPhi, basePeriodHighByte cfg p)]
  | .noise =>
    [(.noiCtl, noiseCtlByte cfg (vol4 v)), (.noiPer, noisePerByte s.noiseMode (noiseIdx n)), (.noiLen, noiseLenByte cfg)]
  | .sample => []
  | .expPulse1 =>
    expansionOn .x1Ctl .x1Plo .x1Phi (expPulseCtlByte (s.xduty.get 0) (vol4 v)) (s.isEnabled .expPulse1)
      (tonePeriod cfg n expPulseTone)
  | .expPulse2 =>
    expansionOn .x2Ctl .x2Plo .x2Phi (expPulseCtlByte (s.xduty.get 1) (vol4 v)) (s.isEnabled .expPulse2)
      (tonePeriod cfg n expPulseTone)
  | .expSawtooth =>
    expansionOn .sawCtl .sawPlo .sawPhi (sawCtlByte (sawRate cfg v)) (s.isEnabled .expSawtooth)
      (tonePeriod cfg n (sawtoothTone cfg))

/-- `NoteOffRecipe(c)` as a list of writes (R152): one write to the control byte; empty for SampleChannel (R151, log 8). -/
def noteOffWrites (cfg : Config) (s : State) : Chan → List (Reg × Byte)
  | .pulse1 => [(.p1Ctl, pulseCtlByte cfg (s.duty.get 0) 0)]
  | .pulse2 => [(.p2Ctl, pulseCtlByte cfg (s.duty.get 1) 0)]
  | .triangle => [(.triCtl, cfg.triOffCtl)]
  | .noise => [(.noiCtl, noiseCtlByte cfg 0)]
  | .sample => []
  | .expPulse1 => [(.x1Ctl, expPulseCtlByte (s.xduty.get 0) 0)]
  | .expPulse2 => [(.x2Ctl, expPulseCtlByte (s.xduty.get 1) 0)]
  | .expSawtooth => [(.sawCtl, 0x00)]

/-- `NoteOnRecipe(c)` (R146 to R151). -/
def noteOnRecipe (cfg : Config) (c : Chan) (n : Note) (v : Velocity) (s : State) : State :=
  busWrites cfg (noteOnWrites cfg s n v c) s

/-- `NoteOffRecipe(c)` (R151, R152). -/
def noteOffRecipe (cfg : Config) (c : Chan) (s : State) : State :=
  busWrites cfg (noteOffWrites cfg s c) s

end Sys2Proof.Machine
end

