-- ==== Sys2Proof/Machine/Allocator.lean ====
section
/-! DEFINITION. The Voice Allocator: Bind, Release and Steal, the five modes, and the seven commands NOTE_ON, NOTE_OFF,
ALL_NOTES_OFF, GET_CHANNEL, SET_ALLOC_MODE, SET_SPLIT_POINT and SET_CHANNEL_ORDER, 43_allocator.md R200 to R220. -/

namespace Sys2Proof.Machine

/-! ### Micro-operations -/

/-- The eviction of `Bind` (R202): the note-off recipe when the channel is sounding, whatever note it holds. -/
def evict (cfg : Config) (c : Chan) (s : State) : State :=
  if s.sounding c then noteOffRecipe cfg c s else s

/-- The table part of `Bind` (R202): the voice and a fresh stamp. -/
def stampVoice (c : Chan) (n : Note) (v : Velocity) (s : State) : State :=
  let s := { s with stampCounter := s.stampCounter + 1 }
  s.setEntry c { s.entry c with note := some n, vel := v, stamp := s.stampCounter }

/-- `Bind(c, n, v)` (R202). -/
def bindVoice (cfg : Config) (c : Chan) (n : Note) (v : Velocity) (s : State) : State :=
  noteOnRecipe cfg c n v (stampVoice c n v (evict cfg c s))

/-- `Release(c)` (R203). -/
def releaseVoice (cfg : Config) (c : Chan) (s : State) : State :=
  let s := noteOffRecipe cfg c s
  s.setEntry c { s.entry c with note := none }

/-- `Steal(G)` (R204): the first member of `G` whose stamp is the smallest; none only for an empty `G`. -/
def stealFrom (s : State) (g : List Chan) : Option Chan :=
  g.find? fun c => g.all fun d => (s.entry c).stamp ≤ (s.entry d).stamp

/-- The first member of `G` that holds the given note field: the note `n`, or −1 (R207, R208). -/
def firstHolding (s : State) (g : List Chan) (note : Option Note) : Option Chan :=
  g.find? fun c => (s.entry c).note = note

/-- The first free member of `G`, else the stolen one (R207, R208). -/
def freeOrStolen (s : State) (g : List Chan) : Option Chan :=
  (firstHolding s g none).or (stealFrom s g)

/-! ### Targets -/

/-- The bass group of R208. -/
def bassGroup (s : State) : List Chan := .triangle :: if s.expEn then [.expSawtooth] else []

/-- The treble group of R208. -/
def trebleGroup (s : State) : List Chan :=
  .pulse1 :: .pulse2 :: if s.expEn then [.expPulse1, .expPulse2] else []

/-- FixedMono (R206): `[active[0]]`. -/
def fixedMonoTargets (s : State) : List Chan := s.active.head?.toList

/-- RoundRobin (R207): the channel of `active` already sounding this note, else the first free one, else the stolen one. -/
def roundRobinTargets (s : State) (n : Note) : List Chan :=
  ((firstHolding s s.active (some n)).or (freeOrStolen s s.active)).toList

/-- PitchSplit (R208): the group of the note, first free, else the stolen one. -/
def pitchSplitTargets (s : State) (n : Note) : List Chan :=
  (freeOrStolen s (if n < s.split then bassGroup s else trebleGroup s)).toList

/-- MidiChannelSplit (R209): the hint's primary channel, its fallback while the expansion unit is off, nothing for an
absent hint. -/
def midiSplitTargets (cfg : Config) (s : State) (hint : BitVec 4) : List Chan :=
  match cfg.hintMap hint with
  | none => []
  | some (primary, fallback) => [if primary.isBase || s.expEn then primary else fallback]

/-- `Targets(mode, hint, n)` (R205 to R210). Unison (R210): the whole active melodic set. -/
def targets (cfg : Config) (s : State) (hint : BitVec 4) (n : Note) : List Chan :=
  match s.mode with
  | .fixedMono => fixedMonoTargets s
  | .roundRobin => roundRobinTargets s n
  | .pitchSplit => pitchSplitTargets s n
  | .midiChannelSplit => midiSplitTargets cfg s hint
  | .unison => s.active

/-! ### Effects -/

/-- `for c in T, in T's order: Bind(c, n, v)` (R205). -/
def bindAll (cfg : Config) (t : List Chan) (n : Note) (v : Velocity) (s : State) : State :=
  t.foldl (fun s c => bindVoice cfg c n v s) s

/-- NOTE_ON's effect (R205): `Targets` computed once, every target bound, the first target answered. -/
def startNote (cfg : Config) (hint : BitVec 4) (note vel : BitVec 8) (s : State) : State :=
  let t := targets cfg s hint (noteOperand note)
  respond t.head? (bindAll cfg t (noteOperand note) (velocityOperand vel) s)

/-- One visit of NOTE_OFF's scan (R213). -/
def releaseIfHolding (cfg : Config) (n : Note) (s : State) (c : Chan) : State :=
  if (s.entry c).note = some n then releaseVoice cfg c s else s

/-- NOTE_OFF's effect (R213): all eight channels in ascending index; the hint is not examined. -/
def stopNote (cfg : Config) (note : BitVec 8) (s : State) : State :=
  Chan.all.foldl (releaseIfHolding cfg (noteOperand note)) s

/-- One visit of ALL_NOTES_OFF's scan (R214). -/
def releaseIfSounding (cfg : Config) (s : State) (c : Chan) : State :=
  if s.sounding c then releaseVoice cfg c s else s

/-- ALL_NOTES_OFF's effect (R214). -/
def stopAllNotes (cfg : Config) (s : State) : State :=
  Chan.all.foldl (releaseIfSounding cfg) s

/-- GET_CHANNEL's effect (R215): the smallest index holding the note, or −1. -/
def answerChannel (note : BitVec 8) (s : State) : State :=
  respond (firstHolding s Chan.all (some (noteOperand note))) s

/-- SET_ALLOC_MODE's effect (R216). -/
def allocModeChange (m : BitVec 8) (s : State) : State :=
  match modeOperand m with
  | none => s
  | some mode => { s with mode := mode }

/-- SET_SPLIT_POINT's effect (R217). -/
def splitPointChange (note : BitVec 8) (s : State) : State := { s with split := noteOperand note }

/-- SET_CHANNEL_ORDER's effect (R218). -/
def channelOrderChange (imm : BitVec 24) (s : State) : State :=
  match orderOperand imm with
  | none => s
  | some order => { s with order := order }

/-! ### The commands -/

/-- NOTE_ON (R205). -/
def execNoteOn (hint : BitVec 4) (note vel : BitVec 8) (s : State) : Host.Outcome State Fault Refusal :=
  unlessHalted (startNote defaultConfig hint note vel) s

/-- NOTE_OFF (R213). -/
def execNoteOff (_hint : BitVec 4) (note : BitVec 8) (s : State) : Host.Outcome State Fault Refusal :=
  unlessHalted (stopNote defaultConfig note) s

/-- ALL_NOTES_OFF (R214). -/
def execAllNotesOff (s : State) : Host.Outcome State Fault Refusal :=
  unlessHalted (stopAllNotes defaultConfig) s

/-- GET_CHANNEL (R215). -/
def execGetChannel (note : BitVec 8) (s : State) : Host.Outcome State Fault Refusal :=
  unlessHalted (answerChannel note) s

/-- SET_ALLOC_MODE (R216). -/
def execSetAllocMode (m : BitVec 8) (s : State) : Host.Outcome State Fault Refusal :=
  unlessHalted (allocModeChange m) s

/-- SET_SPLIT_POINT (R217). -/
def execSetSplitPoint (note : BitVec 8) (s : State) : Host.Outcome State Fault Refusal :=
  unlessHalted (splitPointChange note) s

/-- SET_CHANNEL_ORDER (R218). -/
def execSetChannelOrder (imm : BitVec 24) (s : State) : Host.Outcome State Fault Refusal :=
  unlessHalted (channelOrderChange imm) s

end Sys2Proof.Machine
end

