-- ==== Sys2Proof/Machine/ChannelEnable.lean ====
section
/-! DEFINITION. The enable flags, the master status register and the switch of the expansion unit:
SET_CHANNEL_ENABLED and SET_EXPANSION_ENABLED, 42_channel_enable.md R180 to R183. -/

namespace Sys2Proof.Machine

/-- An expansion channel's period-high byte with only its enable bit changed (R181): `(old & 0x7F) | e << 7`. -/
def withEnableBit (old : Byte) (e : Bool) : Byte := old &&& 0x7F ||| flagByte e <<< 7

/-- What a changed enable flag writes (R181): the whole status register for a base channel; for an expansion channel,
while the unit is on, the period-high byte kept in the image with the new enable bit. -/
def writeEnable (cfg : Config) (c : Chan) (e : Bool) (s : State) : State :=
  if c.isBase then writeStatus cfg s
  else if s.expEn then
    match c.phi with
    | some r => busWrite cfg r (withEnableBit (s.image r) e) s
    | none => s
  else s

/-- SET_CHANNEL_ENABLED's effect (R181). -/
def channelEnableChange (cfg : Config) (chn b : BitVec 8) (s : State) : State :=
  let e := boolOperand b
  match channelOperand chn with
  | none => s
  | some c => if (s.entry c).enabled = e then s else writeEnable cfg c e (s.setEnabled c e)

/-- `ch[c].note <- -1` without a recipe (R182). -/
def silence (c : Chan) (s : State) : State := s.setEntry c { s.entry c with note := none }

/-- Switching the expansion unit off (R182): the "channel off" byte to the three period-high registers, then the three
voices cleared in the table. -/
def expansionOff (cfg : Config) (s : State) : State :=
  let s := { s with expEn := false }
  let s := busWrites cfg [(.x1Phi, cfg.expOff), (.x2Phi, cfg.expOff), (.sawPhi, cfg.expOff)] s
  silence .expSawtooth (silence .expPulse2 (silence .expPulse1 s))

/-- SET_EXPANSION_ENABLED's effect (R182). -/
def expansionChange (cfg : Config) (b : BitVec 8) (s : State) : State :=
  let e := boolOperand b
  if e = s.expEn then s
  else if e then { s with expEn := true }
  else expansionOff cfg s

/-- SET_CHANNEL_ENABLED (R181). -/
def execSetChannelEnabled (chn b : BitVec 8) (s : State) : Host.Outcome State Fault Refusal :=
  unlessHalted (channelEnableChange defaultConfig chn b) s

/-- SET_EXPANSION_ENABLED (R182). -/
def execSetExpansionEnabled (b : BitVec 8) (s : State) : Host.Outcome State Fault Refusal :=
  unlessHalted (expansionChange defaultConfig b) s

end Sys2Proof.Machine
end

