-- ==== Sys2Proof/Machine/Encoder.lean ====
section
/-! DEFINITION. The three setters that re-encode a sounding channel: SET_PULSE_DUTY, SET_EXP_PULSE_DUTY and
SET_NOISE_MODE, 41_encoder.md R153 to R156. The value is always stored; the write follows only when the channel is
sounding (R153). -/

namespace Sys2Proof.Machine

/-- The channel a base pulse index belongs to: `duty[k]` belongs to channel k (R28). -/
def basePulseOf (k : Fin 2) : Chan := if k = 0 then .pulse1 else .pulse2

/-- The channel an expansion pulse index belongs to: `xduty[k]` belongs to channel 5 + k (R28). -/
def expPulseOf (k : Fin 2) : Chan := if k = 0 then .expPulse1 else .expPulse2

/-- The control register of a base pulse index, `CTL(k)` (R65). -/
def basePulseCtl (k : Fin 2) : Reg := if k = 0 then .p1Ctl else .p2Ctl

/-- The control register of an expansion pulse index, `CTL(5 + k)` (R65). -/
def expPulseCtl (k : Fin 2) : Reg := if k = 0 then .x1Ctl else .x2Ctl

/-- SET_PULSE_DUTY's effect (R154). -/
def pulseDutyChange (cfg : Config) (idx level : BitVec 8) (s : State) : State :=
  match pulseIndexOperand idx with
  | none => s
  | some k =>
    let s := { s with duty := s.duty.set k.val (dutyOperand level) k.isLt }
    if s.sounding (basePulseOf k) then
      busWrite cfg (basePulseCtl k) (pulseCtlByte cfg (s.duty.get k) (vol4 (s.entry (basePulseOf k)).vel)) s
    else s

/-- SET_EXP_PULSE_DUTY's effect (R155). -/
def expPulseDutyChange (cfg : Config) (idx level : BitVec 8) (s : State) : State :=
  match pulseIndexOperand idx with
  | none => s
  | some k =>
    let s := { s with xduty := s.xduty.set k.val (expDutyOperand level) k.isLt }
    if s.sounding (expPulseOf k) then
      busWrite cfg (expPulseCtl k) (expPulseCtlByte (s.xduty.get k) (vol4 (s.entry (expPulseOf k)).vel)) s
    else s

/-- SET_NOISE_MODE's effect (R156). -/
def noiseModeChange (cfg : Config) (b : BitVec 8) (s : State) : State :=
  let s := { s with noiseMode := boolOperand b }
  match (s.entry .noise).note with
  | none => s
  | some n => busWrite cfg .noiPer (noisePerByte s.noiseMode (noiseIdx n)) s

/-- SET_PULSE_DUTY (R154). -/
def execSetPulseDuty (idx level : BitVec 8) (s : State) : Host.Outcome State Fault Refusal :=
  unlessHalted (pulseDutyChange defaultConfig idx level) s

/-- SET_EXP_PULSE_DUTY (R155). -/
def execSetExpPulseDuty (idx level : BitVec 8) (s : State) : Host.Outcome State Fault Refusal :=
  unlessHalted (expPulseDutyChange defaultConfig idx level) s

/-- SET_NOISE_MODE (R156). -/
def execSetNoiseMode (b : BitVec 8) (s : State) : Host.Outcome State Fault Refusal :=
  unlessHalted (noiseModeChange defaultConfig b) s

end Sys2Proof.Machine
end

