-- ==== Sys2Proof/Machine/Scheduler.lean ====
section
/-! DEFINITION. The Clock Scheduler and its two commands, INIT and TICK: 40_scheduler.md R120 to R127. -/

namespace Sys2Proof.Machine

/-- `DEN = MCLK_DEN · sr` (R121): `acc / DEN` is the fractional remainder. -/
def State.accDen (cfg : Config) (s : State) : Nat := cfg.mclkDen * s.sr.toNat

/-- `for i in 0..7: ch[i].note <- -1; ch[i].vel <- 0; ch[i].stamp <- 0` (R122); `enabled` is kept. -/
def clearVoices (s : State) : State :=
  Chan.all.foldl (fun s c => s.setEntry c { s.entry c with note := none, vel := 0, stamp := 0 }) s

/-- INIT's effect (R122). -/
def initialiseCore (cfg : Config) (sr : BitVec 24) (s : State) : State :=
  if sr = 0 then
    { s with sr := 0, acc := 0, init := false }
  else
    let s := { s with sr := sr, acc := 0, init := true }
    let s := emit (.configureClock cfg.mclkNum cfg.mclkDen sr) s
    let s := emit .resetState s
    let s := clearVoices s
    let s := { s with stampCounter := 0 }
    let s := s.clearImage
    writeStatus cfg s

/-- `SampleStep` (R123). -/
def sampleStep (cfg : Config) (s : State) : State :=
  let total := s.acc + cfg.mclkNum
  let n := total / s.accDen cfg
  let s := { s with acc := total % s.accDen cfg }
  let s := if n > 0 then emit (.advance n) s else s
  emit .renderFrame s

/-- `repeat n times: SampleStep` (R124). -/
def sampleSteps (cfg : Config) : Nat → State → State
  | 0, s => s
  | n + 1, s => sampleSteps cfg n (sampleStep cfg s)

/-- TICK's effect (R124): the exception when the core is not initialised, whatever `n` is; else `n` sample steps. -/
def renderBlock (cfg : Config) (n : BitVec 24) (s : State) : State :=
  if s.init then sampleSteps cfg n.toNat s else takeException .notInitialised s

/-- INIT (R122). -/
def execInit (sr : BitVec 24) (s : State) : Host.Outcome State Fault Refusal :=
  unlessHalted (initialiseCore defaultConfig sr) s

/-- TICK (R124). -/
def execTick (n : BitVec 24) (s : State) : Host.Outcome State Fault Refusal :=
  unlessHalted (renderBlock defaultConfig n) s

end Sys2Proof.Machine
end

