-- ==== Sys2Proof/Machine/Dispatch.lean ====
section
/-! DEFINITION. exec: one arm per command, each one direct call of that command's meaning. -/

namespace Sys2Proof.Machine

def exec (i : Instr) (s : State) : Host.Outcome State Fault Refusal :=
  match i with
  | .init sr => Sys2Proof.Machine.execInit sr s
  | .tick n => Sys2Proof.Machine.execTick n s
  | .noteOn hint note vel => Sys2Proof.Machine.execNoteOn hint note vel s
  | .noteOff hint note => Sys2Proof.Machine.execNoteOff hint note s
  | .allNotesOff => Sys2Proof.Machine.execAllNotesOff s
  | .getChannel note => Sys2Proof.Machine.execGetChannel note s
  | .setChannelEnabled chn b => Sys2Proof.Machine.execSetChannelEnabled chn b s
  | .setPulseDuty idx level => Sys2Proof.Machine.execSetPulseDuty idx level s
  | .setNoiseMode b => Sys2Proof.Machine.execSetNoiseMode b s
  | .setExpansionEnabled b => Sys2Proof.Machine.execSetExpansionEnabled b s
  | .setExpPulseDuty idx level => Sys2Proof.Machine.execSetExpPulseDuty idx level s
  | .setAllocMode m => Sys2Proof.Machine.execSetAllocMode m s
  | .setSplitPoint note => Sys2Proof.Machine.execSetSplitPoint note s
  | .setChannelOrder imm => Sys2Proof.Machine.execSetChannelOrder imm s

end Sys2Proof.Machine
end

