-- ==== Sys2Proof/Machine/Fetch.lean ====
section
/-! DEFINITION. Taking a word from the command port: 30_encoding.md R101, R103, R106. -/

namespace Sys2Proof.Machine

/-- One command word (R103): the command it decodes to, or, for a reserved `op`, no operation (R101). -/
def runWord (w : Word) (s : State) : Host.Outcome State Fault Refusal :=
  match decode w with
  | .command i => exec i s
  | .reserved _ => .next s

/-- The host presents the word as the very next command (R106); what was waiting waits behind it. -/
def State.present (w : Word) (s : State) : State := { s with input := .command w :: s.input }

end Sys2Proof.Machine
end

