-- ==== Sys2Proof/Machine/Step.lean ====
section
/-! DEFINITION. One step: the core takes the next input of the host (10_state.md R33, 30_encoding.md R106). -/

namespace Sys2Proof.Machine

/-- One step: a waiting command word is taken and run to completion (R19, R106); a reset pulse resets the core (R280);
with nothing waiting the core is idle and keeps all state (R262). -/
def step (s : State) : Host.Outcome State Fault Refusal :=
  match s.input with
  | [] => .next s
  | .command w :: rest => runWord w { s with input := rest }
  | .reset :: rest => .next (hardwareReset { s with input := rest })

/-- The state in which the very next step runs the instruction of the word, numbered as the opcode table numbers it. -/
def State.withFetchWord (s : State) (nbits w : Nat) : State := s.present (wordOfTable nbits w)

end Sys2Proof.Machine
end

