-- ==== Sys2Proof/Machine/Parametric.lean ====
section
/-! DEFINITION. The commands with the parameters of 00_scope.md R10 as an argument ("A model takes every row whose kind is
`parameter` as an argument and may instantiate it with the default"), and runs of decoded commands (20_memory.md R80). -/

namespace Sys2Proof.Machine

/-- What a command does while the core is not halted, for any parameters. -/
def effect (cfg : Config) : Instr → State → State
  | .init sr => initialiseCore cfg sr
  | .tick n => renderBlock cfg n
  | .noteOn hint note vel => startNote cfg hint note vel
  | .noteOff _ note => stopNote cfg note
  | .allNotesOff => stopAllNotes cfg
  | .getChannel note => answerChannel note
  | .setChannelEnabled chn b => channelEnableChange cfg chn b
  | .setPulseDuty idx level => pulseDutyChange cfg idx level
  | .setNoiseMode b => noiseModeChange cfg b
  | .setExpansionEnabled b => expansionChange cfg b
  | .setExpPulseDuty idx level => expPulseDutyChange cfg idx level
  | .setAllocMode m => allocModeChange m
  | .setSplitPoint note => splitPointChange note
  | .setChannelOrder imm => channelOrderChange imm

/-- A command of the core built with the parameters `cfg` (R10); `exec` is this at the defaults. -/
def execWith (cfg : Config) (i : Instr) (s : State) : Host.Outcome State Fault Refusal :=
  unlessHalted (effect cfg i) s

/-- Commands one at a time in stream order (R80(a)), stopping at the first fault or refusal. -/
def execAll : List Instr → State → Host.Outcome State Fault Refusal
  | [], s => .next s
  | i :: rest, s =>
    match exec i s with
    | .next t => execAll rest t
    | .fault r => .fault r
    | .refused r => .refused r

end Sys2Proof.Machine
end

