-- ==== Sys2Proof/Safety.lean ====
section
/-! DEFINITION. The terms claims are stated in: what a safe run is, the invariants of 10_state.md R37, and what the
spec's rules say of operands, bus writes and selections, written as arithmetic, apart from the machine's own
definitions. -/

namespace Sys2Proof.Machine

/-! ### Safe runs and invariants -/

/-- The core is not halted. "A model should treat a run that reaches `fault` = 1 as a run that has gone wrong" (R254). -/
def State.running (s : State) : Prop := s.fault = false

/-- The invariants of R37 that are not carried by the types. (a) and (e) are: a note is −1 or 0..127, duties, mode and
split have their ranges. -/
structure Invariants (s : State) : Prop where
  /-- (b) SampleChannel is silent. -/
  sampleSilent : (s.entry .sample).note = none
  /-- (c) Expansion channels are silent while the expansion unit is off. -/
  expansionSilent : s.expEn = false → ∀ c : Chan, c.isBase = false → (s.entry c).note = none
  /-- (d) The Channel Order is a permutation of the six melodic channels. -/
  orderPermutes : s.order.toList.Perm Chan.melodic
  /-- (f) No stamp is above the counter. -/
  stampBound : ∀ c : Chan, (s.entry c).stamp ≤ s.stampCounter
  /-- (f) Two sounding channels have different stamps. -/
  stampsDiffer : ∀ c d : Chan, s.sounding c → s.sounding d → (s.entry c).stamp = (s.entry d).stamp → c = d
  /-- (g) An initialised core has a rate and a remainder below one pulse. -/
  clockRunning : s.init = true → s.sr ≠ 0 ∧ s.acc < 10 * s.sr.toNat
  /-- (g) A core that is not initialised has no remainder. -/
  clockStopped : s.init = false → s.acc = 0
  /-- (h) A halted core is not initialised. -/
  haltedUninitialised : s.fault = true → s.init = false
  /-- (i) The image of STATUS is the status mask, but for a core whose status byte was never written: there it is 0x00
  and the mask is the reset mask. -/
  statusImage : s.image .status = s.statusMask ∨ (s.image .status = 0x00 ∧ s.statusMask = 0x0F ∧ s.init = false)

/-! ### Operands as the rules give them -/

/-- R96: fields 0x00 to 0x7F are the notes 0 to 127, fields 0x80 to 0xFF (negative) are note 0. -/
def clampedNote (field : BitVec 8) : Note := if h : field.toNat < 128 then ⟨field.toNat, h⟩ else 0

/-- R97: codes 0 to 127 are themselves, codes 128 to 255 are 127. -/
def clampedVelocity (field : BitVec 8) : Velocity := if h : field.toNat < 128 then ⟨field.toNat, h⟩ else 127

/-! ### Bytes and writes as arithmetic, default parameters -/

/-- R144 as a number. -/
def volumeNumber (v : Velocity) : Nat := (30 * v.val + 127) / 254

/-- R141 and R142 with the default parameters, as a number: divisor `d`, largest period `m`. -/
def periodNumber (n : Note) (d m : Nat) : Nat := min (praw defaultConfig n d) m

/-- The writes of R147 to R150, register by register, each byte as a sum of its fields. -/
def onBytes (s : State) (n : Note) (v : Velocity) : Chan → List (Reg × Nat)
  | .pulse1 =>
    [(.p1Ctl, 64 * (s.duty.get 0).toNat + 48 + volumeNumber v), (.p1Plo, periodNumber n 16 2047 % 256),
     (.p1Phi, 248 + periodNumber n 16 2047 / 256)]
  | .pulse2 =>
    [(.p2Ctl, 64 * (s.duty.get 1).toNat + 48 + volumeNumber v), (.p2Plo, periodNumber n 16 2047 % 256),
     (.p2Phi, 248 + periodNumber n 16 2047 / 256)]
  | .triangle =>
    [(.triCtl, 0xFF), (.triPlo, periodNumber n 32 2047 % 256), (.triPhi, 248 + periodNumber n 32 2047 / 256)]
  | .noise =>
    [(.noiCtl, 48 + volumeNumber v), (.noiPer, 128 * s.noiseMode.toNat + (15 - n.val / 8)), (.noiLen, 248)]
  | .sample => []
  | .expPulse1 =>
    [(.x1Ctl, 16 * (s.xduty.get 0).toNat + volumeNumber v), (.x1Plo, periodNumber n 16 4095 % 256),
     (.x1Phi, 128 * (s.entry .expPulse1).enabled.toNat + periodNumber n 16 4095 / 256)]
  | .expPulse2 =>
    [(.x2Ctl, 16 * (s.xduty.get 1).toNat + volumeNumber v), (.x2Plo, periodNumber n 16 4095 % 256),
     (.x2Phi, 128 * (s.entry .expPulse2).enabled.toNat + periodNumber n 16 4095 / 256)]
  | .expSawtooth =>
    [(.sawCtl, 2 * volumeNumber v), (.sawPlo, periodNumber n 16 4095 % 256),
     (.sawPhi, 128 * (s.entry .expSawtooth).enabled.toNat + periodNumber n 16 4095 / 256)]

/-- The one write of R152 for a channel, as a number; SampleChannel has none (R151). -/
def offBytes (s : State) : Chan → List (Reg × Nat)
  | .pulse1 => [(.p1Ctl, 64 * (s.duty.get 0).toNat + 48)]
  | .pulse2 => [(.p2Ctl, 64 * (s.duty.get 1).toNat + 48)]
  | .triangle => [(.triCtl, 0x80)]
  | .noise => [(.noiCtl, 48)]
  | .sample => []
  | .expPulse1 => [(.x1Ctl, 16 * (s.xduty.get 0).toNat)]
  | .expPulse2 => [(.x2Ctl, 16 * (s.xduty.get 1).toNat)]
  | .expSawtooth => [(.sawCtl, 0)]

/-- The note-off write of a channel that is sounding, nothing for a silent one (R202, R203). -/
def evictBytes (s : State) (c : Chan) : List (Reg × Nat) :=
  if (s.entry c).note = none then [] else offBytes s c

/-- The status byte of R36 and R71 as a sum: bit i is `ch[i].enabled` for the base channel group. -/
def statusNumber (s : State) : Nat :=
  (s.entry .pulse1).enabled.toNat + 2 * (s.entry .pulse2).enabled.toNat + 4 * (s.entry .triangle).enabled.toNat
    + 8 * (s.entry .noise).enabled.toNat + 16 * (s.entry .sample).enabled.toNat

/-- The trace events of a list of writes, at the default addresses (R64, R66). -/
def writeEvents (ws : List (Reg × Nat)) : List Event :=
  ws.map fun w => .memWrite (defaultAddr w.1) (BitVec.ofNat 8 w.2)

/-- The image byte of a register after a list of writes: the last one written there, else the old one (R30). -/
def imageAfter (ws : List (Reg × Nat)) (r : Reg) (old : Byte) : Byte :=
  ws.foldl (fun b w => if w.1 = r then BitVec.ofNat 8 w.2 else b) old

/-- What a list of events leaves in the image byte of a register (R30): each write at its address replaces it,
`ResetState` (sent by INIT) clears it. -/
def replayImage (evs : List Event) (r : Reg) (old : Byte) : Byte :=
  evs.foldl
    (fun b e =>
      match e with
      | .memWrite a v => if a = defaultAddr r then v else b
      | .resetState => 0
      | .configureClock _ _ _ | .advance _ | .renderFrame | .respond _ => b)
    old

/-- The pulses an event advances the chip by (R75). -/
def Event.pulses : Event → Nat
  | .advance n => n
  | .memWrite _ _ | .configureClock _ _ _ | .resetState | .renderFrame | .respond _ => 0

/-- The event is a bus write. -/
def Event.isWrite : Event → Bool
  | .memWrite _ _ => true
  | .advance _ | .configureClock _ _ _ | .resetState | .renderFrame | .respond _ => false

/-- An event with its bus address renamed (R66). -/
def Event.renamed (f : Addr → Addr) : Event → Event
  | .memWrite a v => .memWrite (f a) v
  | .configureClock n d sr => .configureClock n d sr
  | .resetState => .resetState
  | .advance n => .advance n
  | .renderFrame => .renderFrame
  | .respond v => .respond v

/-! ### Selections and frames -/

/-- `c` is the first member of the list with the property. -/
def FirstWith (p : Chan → Prop) (l : List Chan) (c : Chan) : Prop :=
  ∃ before after, l = before ++ c :: after ∧ p c ∧ ∀ d ∈ before, ¬ p d

/-- `c` has the smallest stamp of the list (R204). -/
def OldestIn (s : State) (l : List Chan) (c : Chan) : Prop := ∀ d ∈ l, (s.entry c).stamp ≤ (s.entry d).stamp

/-- `c` is the first free member of the group, or, when none is free, the first of those with the smallest stamp (R207,
R208). -/
def FreeOrOldest (s : State) (g : List Chan) (c : Chan) : Prop :=
  ((∃ d ∈ g, (s.entry d).note = none) → FirstWith (fun d => (s.entry d).note = none) g c) ∧
  ((∀ d ∈ g, (s.entry d).note ≠ none) → FirstWith (OldestIn s g) g c)

/-- `t` differs from `s` at most in the table, the image, the stamp counter and the trace: every configuration register,
the scheduler registers, both flags and the waiting input are the same. -/
def KeepsSettings (s t : State) : Prop :=
  t = { s with ch := t.ch, img := t.img, stampCounter := t.stampCounter, trace := t.trace }

/-- `t` is `s` after the writes `ws` and then the events `tail`: the image and the trace show them. -/
def WritesExactly (ws : List (Reg × Nat)) (tail : List Event) (s t : State) : Prop :=
  t.trace = s.trace ++ writeEvents ws ++ tail ∧ ∀ r : Reg, t.image r = imageAfter ws r (s.image r)

/-- What one `Bind(c, n, v)` and the response `c` leave (R202, R205): the voice with a fresh stamp, the eviction's note-off
write before the three note-on writes, and nothing else. -/
def BoundAt (c : Chan) (n : Note) (v : Velocity) (s t : State) : Prop :=
  t.entry c = { enabled := (s.entry c).enabled, note := some n, vel := v, stamp := s.stampCounter + 1 } ∧
  (∀ d : Chan, d ≠ c → t.entry d = s.entry d) ∧
  t.stampCounter = s.stampCounter + 1 ∧
  WritesExactly (evictBytes s c ++ onBytes s n v c) [.respond (BitVec.ofNat 8 c.index.val)] s t ∧
  KeepsSettings s t

/-- An entry whose voice was released: the note field silent, the rest kept (R203). -/
def releasedEntry (e : Entry) : Entry := { e with note := none }

/-- What releasing exactly the channels of a property leaves, in ascending index (R203, R213, R214). -/
def ReleasedExactly (p : Chan → Bool) (s t : State) : Prop :=
  (∀ c : Chan, t.entry c = if p c then releasedEntry (s.entry c) else s.entry c) ∧
  t.stampCounter = s.stampCounter ∧
  WritesExactly ((Chan.all.filter p).flatMap (offBytes s)) [] s t ∧
  KeepsSettings s t

/-- The events of sample step number `k` (from 0) of a block that starts with the remainder `acc`, with `num` added per
sample over `den`: the pulses whose boundaries it crosses, then the frame (R123, R125). -/
def sampleEvents (num den acc k : Nat) : List Event :=
  let pulses := (acc + (k + 1) * num) / den - (acc + k * num) / den
  (if pulses = 0 then [] else [.advance pulses]) ++ [.renderFrame]

/-- The number of samples a command asks for (R124). -/
def samplesAsked : Instr → Nat
  | .tick n => n.toNat
  | .init _ | .noteOn _ _ _ | .noteOff _ _ | .allNotesOff | .getChannel _ | .setChannelEnabled _ _
  | .setPulseDuty _ _ | .setNoiseMode _ | .setExpansionEnabled _ | .setExpPulseDuty _ _ | .setAllocMode _
  | .setSplitPoint _ | .setChannelOrder _ => 0

end Sys2Proof.Machine
end

