-- ==== Sys2Proof/Certificates/Slice0/Obligations.lean ====
section
/-! DEFINITION. The statements about the machine, for the provers. Each docstring names the rule of spec/ it formalises.
The spec writes many of its rules as decisions of its own (92_eei_decisions.md); those are the spec's, not the model's.
Statements about exec are about the core built with the default parameters (log 5). -/

open Sys2Proof Sys2Proof.Machine

/-! ### Encoding -/

/-- Every command survives encoding and decoding, with every operand at every value (30_encoding.md R90 to R95, R100, R104). -/
def Obligations.EncodedCommandDecodesBack : Prop :=
  ∀ i : Instr, i.wellFormed = true → decode (encode i) = .command i

/-- A word that decodes to a command is that command's assembled word once the ignored bits are cleared (R102, R104). -/
def Obligations.DecodedWordKeepsItsSignificantBits : Prop :=
  ∀ (w : Word) (i : Instr), decode w = .command i → encode i = w &&& significantBits i

/-- R103 and R100: a word decodes to a command exactly when its top byte is one of the 14 operation codes, and then to a
command with that operation code. -/
def Obligations.DecodingIsByTheTopByte : Prop :=
  ∀ w : Word,
    ((∃ i, decode w = .command i) ↔
      w.toNat / 2 ^ 24 ∈ [0x01, 0x02, 0x10, 0x11, 0x12, 0x13, 0x20, 0x21, 0x22, 0x23, 0x24, 0x25, 0x26, 0x27]) ∧
    ∀ i, decode w = .command i → (opcode i).toNat = w.toNat / 2 ^ 24

/-- R101: a reserved operation code is no operation: no state changes, the trace stays, no response, no fault. Only the
command port has moved on (the model's `input`, log 1). -/
def Obligations.ReservedOpcodeIsNoOperation : Prop :=
  ∀ (s : State) (w : Word) (rest : List PortInput), s.input = .command w :: rest →
    (w.toNat / 2 ^ 24 = 0x00 ∨ (0x03 ≤ w.toNat / 2 ^ 24 ∧ w.toNat / 2 ^ 24 ≤ 0x0F) ∨
      (0x14 ≤ w.toNat / 2 ^ 24 ∧ w.toNat / 2 ^ 24 ≤ 0x1F) ∨ (0x28 ≤ w.toNat / 2 ^ 24 ∧ w.toNat / 2 ^ 24 ≤ 0xFF)) →
    decode w = .reserved (BitVec.ofNat 8 (w.toNat / 2 ^ 24)) ∧ step s = .next { s with input := rest }

/-- R102: ignored bits do not matter, an assembler writes them as zero, NOTE_OFF's hint is never examined and NOTE_ON's only
in MidiChannelSplit mode. -/
def Obligations.IgnoredBitsHaveNoEffect : Prop :=
  (∀ (i : Instr) (junk : Word), decode (encode i ||| (junk &&& ~~~ significantBits i)) = .command i) ∧
  (∀ i : Instr, encode i &&& ~~~ significantBits i = 0) ∧
  (∀ (h k : BitVec 4) (note : BitVec 8) (s : State), exec (.noteOff h note) s = exec (.noteOff k note) s) ∧
  (∀ (h k : BitVec 4) (note vel : BitVec 8) (s : State), s.mode ≠ .midiChannelSplit →
    exec (.noteOn h note vel) s = exec (.noteOn k note vel) s)

/-- The worked encodings of R104, decoded (a sanity statement). -/
def Obligations.WorkedEncodingsDecode : Prop :=
  decode 0x10003C64 = .command (.noteOn 0 60 100) ∧ decode 0x11003C00 = .command (.noteOff 0 60) ∧
  decode 0x1090FDC8 = .command (.noteOn 9 0xFD 200) ∧ decode 0x0100AC44 = .command (.init 44100) ∧
  decode 0x02000003 = .command (.tick 3) ∧ decode 0x27012567 = .command (.setChannelOrder 0x012567) ∧
  decode 0x2600003C = .command (.setSplitPoint 60) ∧ decode 0x25000002 = .command (.setAllocMode 2)

/-! ### The step, reset and the exception -/

/-- R33 and R106 in the model's terms (log 1): the step runs the command the waiting word decodes to, and a word presented by
the host is run by the very next step. -/
def Obligations.StepRunsTheDecodedCommand : Prop :=
  (∀ (s : State) (w : Word) (rest : List PortInput) (i : Instr),
    s.input = .command w :: rest → decode w = .command i → step s = exec i { s with input := rest }) ∧
  (∀ (s : State) (i : Instr), step (s.withFetchWord 32 (encode i).toNat) = exec i s)

/-- R251 and R103: no command, no word and no input stops the machine; with nothing waiting the core is idle and keeps all
state (R262). -/
def Obligations.EveryStepHasANextState : Prop :=
  (∀ s : State, ∃ t, step s = .next t) ∧ (∀ s : State, s.input = [] → step s = .next s)

/-- R35: the value of every piece of state at reset. -/
def Obligations.ResetGivesEveryResetValue : Prop :=
  (∀ c : Chan, State.reset.entry c = { enabled := decide (c.index.val ≠ 4), note := none, vel := 0, stamp := 0 }) ∧
    State.reset.mode.number = 1 ∧ State.reset.split.val = 60 ∧
    State.reset.order.toList.map (fun c => c.index.val) = [0, 1, 2, 5, 6, 7] ∧
    (∀ k : Fin 2, State.reset.duty.get k = 0 ∧ State.reset.xduty.get k = 0) ∧
    State.reset.noiseMode = false ∧ State.reset.expEn = false ∧ State.reset.sr = 0 ∧ State.reset.acc = 0 ∧
    (∀ r : Reg, State.reset.image r = 0x00) ∧ State.reset.stampCounter = 0 ∧ State.reset.init = false ∧
    State.reset.fault = false

/-- The reset input (R280) in the model's terms (log 11): whatever the state, halted or not, a waiting reset pulse gives the
state of reset, sends nothing, and leaves what the host has still to send. -/
def Obligations.ResetPulseRestoresTheResetState : Prop :=
  ∀ (s : State) (rest : List PortInput), s.input = .reset :: rest →
    ∃ t, step s = .next t ∧ t.trace = s.trace ∧ t.input = rest ∧ { t with trace := [], input := [] } = State.reset

/-- R254: taking `NotInitialised` sets `fault` and changes nothing else; from then on every command does nothing. -/
def Obligations.NotInitialisedHaltsTheCore : Prop :=
  (∀ (s : State) (n : BitVec 24), s.fault = false → s.init = false →
    exec (.tick n) s = .next { s with fault := true }) ∧
  (∀ (s : State) (i : Instr), s.fault = true → exec i s = .next s)

/-- R250: the exception is raised by TICK, and only by TICK, when `init` = 0; it has no other effect, and the cause recorded
has code 1. -/
def Obligations.OnlyAnUninitialisedTickFaults : Prop :=
  ∀ (i : Instr) (s t : State), s.fault = false → exec i s = .next t →
    (t.fault = true ↔ s.init = false ∧ ∃ n, i = .tick n) ∧
    (t.fault = true → t = { s with fault := true } ∧ t.recordedCause.map Cause.code = some 1)

/-- R255 in the model's terms (log 11): only a reset pulse clears `fault`, and no second exception is taken. -/
def Obligations.OnlyResetClearsTheFault : Prop :=
  ∀ s t : State, step s = .next t → s.fault = true →
    (t.fault = false ↔ ∃ rest, s.input = .reset :: rest) ∧
    (t.fault = true → t = { s with input := t.input })

/-! ### Invariants and whole-machine rules -/

/-- The invariants of 10_state.md R37 hold at reset. -/
def Obligations.ResetMeetsTheInvariants : Prop := Invariants State.reset

/-- The invariants of 10_state.md R37 are kept by every step: every command, every reserved word, reset and idling. -/
def Obligations.StepKeepsTheInvariants : Prop :=
  ∀ s t : State, Invariants s → step s = .next t → Invariants t

/-- R64 and R74: whatever a step sends is added to the trace, and every bus write in it is to one of the 22 named
registers. -/
def Obligations.EveryWriteIsToANamedRegister : Prop :=
  ∀ s t : State, step s = .next t →
    ∃ evs, t.trace = s.trace ++ evs ∧ ∀ (a : Addr) (v : Byte), Event.memWrite a v ∈ evs → ∃ r, a = defaultAddr r

/-- R30: the register image is the core's copy of the last byte written: after any command it is what the command's own
events leave in it. -/
def Obligations.ImageIsTheLastByteWritten : Prop :=
  ∀ (i : Instr) (s t : State), exec i s = .next t →
    ∃ evs, t.trace = s.trace ++ evs ∧ ∀ r : Reg, t.image r = replayImage evs r (s.image r)

/-- R19, R62 and R34: what was sent before and what waits after have no influence on a command. -/
def Obligations.CommandsReadNeitherTraceNorInput : Prop :=
  ∀ (i : Instr) (s t : State) (sent : List Event) (waiting : List PortInput), exec i s = .next t →
    exec i { s with trace := sent ++ s.trace, input := waiting }
      = .next { t with trace := sent ++ t.trace, input := waiting }

/-- R291: a command other than TICK issues at most 24 bus writes, and a Unison note-on over six sounding channels issues 24. -/
def Obligations.AtMostTwentyFourWritesPerCommand : Prop :=
  (∀ (i : Instr) (s t : State), (∀ n, i ≠ .tick n) → exec i s = .next t →
    ∃ evs, t.trace = s.trace ++ evs ∧ evs.countP Event.isWrite ≤ 24) ∧
  (∀ (hint : BitVec 4) (note vel : BitVec 8) (s t : State), Invariants s → s.fault = false → s.mode = .unison →
    s.expEn = true → (∀ c : Chan, c.isMelodic = true → (s.entry c).note ≠ none) →
    exec (.noteOn hint note vel) s = .next t →
    ∃ evs, t.trace = s.trace ++ evs ∧ evs.countP Event.isWrite = 24)

/-- R38: which command writes which state. -/
def Obligations.CommandsWriteOnlyTheirState : Prop :=
  ∀ (i : Instr) (s t : State), exec i s = .next t →
    ((∃ c, (t.entry c).note ≠ (s.entry c).note) →
      (∃ r, i = .init r) ∨ (∃ h n v, i = .noteOn h n v) ∨ (∃ h n, i = .noteOff h n) ∨ i = .allNotesOff ∨
        (∃ b, i = .setExpansionEnabled b)) ∧
    ((∃ c, (t.entry c).vel ≠ (s.entry c).vel ∨ (t.entry c).stamp ≠ (s.entry c).stamp) ∨
        t.stampCounter ≠ s.stampCounter →
      (∃ r, i = .init r) ∨ (∃ h n v, i = .noteOn h n v)) ∧
    ((∃ c, (t.entry c).enabled ≠ (s.entry c).enabled) → ∃ c b, i = .setChannelEnabled c b) ∧
    (t.mode ≠ s.mode → ∃ m, i = .setAllocMode m) ∧
    (t.split ≠ s.split → ∃ n, i = .setSplitPoint n) ∧
    (t.order ≠ s.order → ∃ o, i = .setChannelOrder o) ∧
    (t.duty ≠ s.duty → ∃ k l, i = .setPulseDuty k l) ∧
    (t.xduty ≠ s.xduty → ∃ k l, i = .setExpPulseDuty k l) ∧
    (t.noiseMode ≠ s.noiseMode → ∃ b, i = .setNoiseMode b) ∧
    (t.expEn ≠ s.expEn → ∃ b, i = .setExpansionEnabled b) ∧
    (t.sr ≠ s.sr ∨ t.init ≠ s.init → ∃ r, i = .init r) ∧
    (t.acc ≠ s.acc → (∃ r, i = .init r) ∨ (∃ n, i = .tick n)) ∧
    (t.fault ≠ s.fault → ∃ n, i = .tick n) ∧
    ((∃ r, t.image r ≠ s.image r) →
      (∀ n, i ≠ .tick n) ∧ (∀ n, i ≠ .getChannel n) ∧ (∀ m, i ≠ .setAllocMode m) ∧ (∀ n, i ≠ .setSplitPoint n) ∧
        (∀ o, i ≠ .setChannelOrder o)) ∧
    t.input = s.input

/-- R219: which channels a note-on can reach: SampleChannel never, Noise only through hint 9 of MidiChannelSplit mode, the
expansion channels only while the unit is on; every channel it reaches takes the note. -/
def Obligations.NoteOnReachesOnlyItsChannels : Prop :=
  ∀ (hint : BitVec 4) (note vel : BitVec 8) (s t : State), Invariants s → s.fault = false →
    exec (.noteOn hint note vel) s = .next t →
    t.entry .sample = s.entry .sample ∧
    ((s.mode ≠ .midiChannelSplit ∨ hint ≠ 9) → t.entry .noise = s.entry .noise) ∧
    (s.expEn = false → ∀ c : Chan, c.isBase = false → t.entry c = s.entry c) ∧
    ∀ c : Chan, t.entry c ≠ s.entry c → (t.entry c).note = some (clampedNote note)

/-- R36 and R201: the active melodic set has the base melodic channels, and the expansion channels when the unit is on: three
members or six, in the sequence of `order`, never empty. -/
def Obligations.ActiveSetHasThreeOrSixMembers : Prop :=
  ∀ s : State, Invariants s →
    s.active.Sublist s.order.toList ∧ s.active.Nodup ∧
    (s.expEn = false → s.active.length = 3 ∧ ∀ c, c ∈ s.active ↔ c.index.val ≤ 2) ∧
    (s.expEn = true → s.active.length = 6 ∧ ∀ c, c ∈ s.active ↔ c.isMelodic = true)

/-! ### Clock Scheduler -/

/-- R122: INIT, for a zero and a non-zero sample rate. -/
def Obligations.InitSetsUpTheCore : Prop :=
  ∀ (s : State) (sr : BitVec 24), s.fault = false →
    (sr = 0 → exec (.init sr) s = .next { s with sr := 0, acc := 0, init := false }) ∧
    (sr ≠ 0 → ∃ t, exec (.init sr) s = .next t ∧ t.sr = sr ∧ t.acc = 0 ∧ t.init = true ∧
      (∀ c : Chan, t.entry c = { enabled := (s.entry c).enabled, note := none, vel := 0, stamp := 0 }) ∧
      t.stampCounter = 0 ∧
      (∀ r : Reg, t.image r = if r = .status then BitVec.ofNat 8 (statusNumber s) else 0x00) ∧
      t.trace = s.trace ++ [.configureClock 17897727 10 sr, .resetState,
        .memWrite 0x4015 (BitVec.ofNat 8 (statusNumber s))] ∧
      t = { s with ch := t.ch, sr := t.sr, acc := t.acc, img := t.img, stampCounter := t.stampCounter,
                   init := t.init, trace := t.trace })

/-- R123 and R124: TICK on an initialised core renders its samples: the pulses of each sample step, then the frame, and the
remainder; nothing else changes. -/
def Obligations.TickRendersItsSamples : Prop :=
  ∀ (s : State) (n : BitVec 24), s.fault = false → s.init = true → s.acc < 10 * s.sr.toNat →
    exec (.tick n) s = .next { s with
      acc := (s.acc + n.toNat * 17897727) % (10 * s.sr.toNat)
      trace := s.trace ++ (List.range n.toNat).flatMap (sampleEvents 17897727 (10 * s.sr.toNat) s.acc) }

/-- R124: TICK a and then TICK b is TICK (a + b), on any core. -/
def Obligations.TicksAddUp : Prop :=
  ∀ (s t : State) (a b : BitVec 24), a.toNat + b.toNat < 2 ^ 24 → exec (.tick a) s = .next t →
    exec (.tick b) t = exec (.tick (a + b)) s

/-- R125, the cumulative law: however commands and TICKs are interleaved after an INIT, the pulses scheduled for `k` samples
are exactly `floor(k · MCLK_NUM / DEN)`, the remainder is the rest, and each single count is the floor or the ceiling of
`clocksPerSample`. -/
def Obligations.PulseTotalsNeverDrift : Prop :=
  ∀ (is : List Instr) (s : State), s.fault = false → s.init = true → s.sr ≠ 0 → s.acc = 0 →
    (∀ i ∈ is, ∀ r, i ≠ .init r) →
    ∃ t evs, execAll is s = .next t ∧ t.trace = s.trace ++ evs ∧
      (evs.map Event.pulses).sum = (is.map samplesAsked).sum * 17897727 / (10 * s.sr.toNat) ∧
      t.acc = (is.map samplesAsked).sum * 17897727 % (10 * s.sr.toNat) ∧
      evs.count .renderFrame = (is.map samplesAsked).sum ∧
      ∀ n, Event.advance n ∈ evs →
        n = 17897727 / (10 * s.sr.toNat) ∨ n = (17897727 + 10 * s.sr.toNat - 1) / (10 * s.sr.toNat)

/-! ### Period/Register Encoder -/

/-- R141, in integers, for any legal parameters: `praw` is the largest `k` with `(2k + 1)^12 · B ≤ A`, or 0 if there is none,
and the period is its minimum with the channel's largest period. -/
def Obligations.PeriodIsTheLargestFit : Prop :=
  ∀ (cfg : Config) (n : Note), cfg.wellFormed = true →
    (∀ d : Nat, 0 < d →
      let a := (2 * cfg.mclkNum) ^ 12 * 2 ^ (69 - n.val)
      let b := (440 * d * cfg.mclkDen) ^ 12 * 2 ^ (n.val - 69)
      (∀ k, (2 * k + 1) ^ 12 * b ≤ a → k ≤ praw cfg n d) ∧
      ((2 * praw cfg n d + 1) ^ 12 * b ≤ a ∨ praw cfg n d = 0)) ∧
    ∀ c : Chan, period cfg n c =
      if c = .noise ∨ c = .sample then none
      else if c = .pulse1 ∨ c = .pulse2 then some (min (praw cfg n 16) 2047)
      else if c = .triangle then some (min (praw cfg n 32) 2047)
      else if c = .expSawtooth then some (min (praw cfg n cfg.sawDivisor) 4095)
      else some (min (praw cfg n 16) 4095)

/-- R140 and R141, in real numbers: `praw` is `round(MCLK / (d · frequency(n)) − 1)` clamped below at 0, with
`frequency(n) = 440 · 2^((n − 69)/12)` (`round` rounds halves up, which R13 gives for the values that survive the clamp). -/
def Obligations.PeriodMatchesTheRealFormula : Prop :=
  ∀ (cfg : Config) (n : Note) (d : Nat), cfg.wellFormed = true → 0 < d →
    ((praw cfg n d : Nat) : Int) =
      max (round (((cfg.mclkNum : ℝ) / (cfg.mclkDen : ℝ)) / ((d : ℝ) * (440 * (2 : ℝ) ^ ((((n.val : ℝ)) - 69) / 12))) - 1)) 0

/-- R158: the period never rises with the note, for any legal parameters, and with the default ones the clamps hold exactly at
the notes the rule gives. -/
def Obligations.PeriodIsMonotoneAndClamps : Prop :=
  (∀ (cfg : Config) (c : Chan) (m n : Note) (p q : Nat), cfg.wellFormed = true → m ≤ n →
    period cfg m c = some p → period cfg n c = some q → q ≤ p ∧ p ≤ if c.isBase then 2047 else 4095) ∧
  (∀ n : Note,
    (period defaultConfig n .pulse1 = some 2047 ↔ n.val ≤ 32) ∧ (period defaultConfig n .pulse2 = some 2047 ↔ n.val ≤ 32) ∧
    (period defaultConfig n .triangle = some 2047 ↔ n.val ≤ 20) ∧
    (period defaultConfig n .expPulse1 = some 4095 ↔ n.val ≤ 20) ∧
    (period defaultConfig n .expPulse2 = some 4095 ↔ n.val ≤ 20) ∧
    (period defaultConfig n .expSawtooth = some 4095 ↔ n.val ≤ 20) ∧
    (period { defaultConfig with sawDivisor := 14 } n .expSawtooth = some 4095 ↔ n.val ≤ 23) ∧
    (∀ c : Chan, period defaultConfig n c ≠ some 0)) ∧
  period defaultConfig 127 .pulse1 = some 8 ∧ period defaultConfig 127 .triangle = some 3 ∧
  period { defaultConfig with sawDivisor := 14 } 127 .expSawtooth = some 9

/-- R143, R144 and R145: the noise index, the volume (nearest to 15 v / 127, no tie, non-decreasing) and, for any parameters,
the sawtooth rate. -/
def Obligations.NoiseIndexVolumeAndSawRate : Prop :=
  (∀ n : Note, (noiseIdx n).toNat + n.val / 8 = 15) ∧
  (∀ v : Velocity, (vol4 v).toNat = (30 * v.val + 127) / 254 ∧
    2 * ((127 * (vol4 v).toNat : Int) - 15 * v.val).natAbs < 127) ∧
  (∀ v w : Velocity, v ≤ w → (vol4 v).toNat ≤ (vol4 w).toNat) ∧
  (∀ (cfg : Config) (v : Velocity), (sawRate cfg v).toNat = (vol4 v).toNat * 2 ^ cfg.sawRateShift % 64)

/-- R154: SET_PULSE_DUTY. -/
def Obligations.SetPulseDutyStoresAndRewrites : Prop :=
  ∀ (s : State) (idx level : BitVec 8), s.fault = false →
    (1 < idx.toNat → exec (.setPulseDuty idx level) s = .next s) ∧
    (∀ (k : Fin 2) (c : Chan) (r : Reg), idx.toNat = k.val →
      (k = 0 ∧ c = .pulse1 ∧ r = .p1Ctl) ∨ (k = 1 ∧ c = .pulse2 ∧ r = .p2Ctl) →
      ∃ t, exec (.setPulseDuty idx level) s = .next t ∧
        (t.duty.get k).toNat = min level.toNat 3 ∧ (∀ j : Fin 2, j ≠ k → t.duty.get j = s.duty.get j) ∧
        ((s.entry c).note = none → WritesExactly [] [] s t) ∧
        ((s.entry c).note ≠ none →
          WritesExactly [(r, 64 * min level.toNat 3 + 48 + volumeNumber (s.entry c).vel)] [] s t) ∧
        t = { s with duty := t.duty, img := t.img, trace := t.trace })

/-- R155: SET_EXP_PULSE_DUTY. -/
def Obligations.SetExpPulseDutyStoresAndRewrites : Prop :=
  ∀ (s : State) (idx level : BitVec 8), s.fault = false →
    (1 < idx.toNat → exec (.setExpPulseDuty idx level) s = .next s) ∧
    (∀ (k : Fin 2) (c : Chan) (r : Reg), idx.toNat = k.val →
      (k = 0 ∧ c = .expPulse1 ∧ r = .x1Ctl) ∨ (k = 1 ∧ c = .expPulse2 ∧ r = .x2Ctl) →
      ∃ t, exec (.setExpPulseDuty idx level) s = .next t ∧
        (t.xduty.get k).toNat = min level.toNat 7 ∧ (∀ j : Fin 2, j ≠ k → t.xduty.get j = s.xduty.get j) ∧
        ((s.entry c).note = none → WritesExactly [] [] s t) ∧
        ((s.entry c).note ≠ none →
          WritesExactly [(r, 16 * min level.toNat 7 + volumeNumber (s.entry c).vel)] [] s t) ∧
        t = { s with xduty := t.xduty, img := t.img, trace := t.trace })

/-- R156: SET_NOISE_MODE. -/
def Obligations.SetNoiseModeStoresAndRewrites : Prop :=
  ∀ (s : State) (b : BitVec 8), s.fault = false →
    ∃ t, exec (.setNoiseMode b) s = .next t ∧
      (t.noiseMode = true ↔ b.toNat ≠ 0) ∧
      ((s.entry .noise).note = none → WritesExactly [] [] s t) ∧
      (∀ n : Note, (s.entry .noise).note = some n →
        WritesExactly [(.noiPer, (if b.toNat = 0 then 0 else 128) + (15 - n.val / 8))] [] s t) ∧
      t = { s with noiseMode := t.noiseMode, img := t.img, trace := t.trace }

/-! ### Channel enables and the expansion switch -/

/-- R181 (and R180): SET_CHANNEL_ENABLED. -/
def Obligations.SetChannelEnabledWritesTheChange : Prop :=
  ∀ (s : State) (chn b : BitVec 8), s.fault = false →
    (7 < chn.toNat → exec (.setChannelEnabled chn b) s = .next s) ∧
    (∀ (c : Chan) (e : Bool), c.index.val = chn.toNat → (e = true ↔ b.toNat ≠ 0) →
      ((s.entry c).enabled = e → exec (.setChannelEnabled chn b) s = .next s) ∧
      ((s.entry c).enabled ≠ e →
        ∃ t, exec (.setChannelEnabled chn b) s = .next t ∧
          t.entry c = { enabled := e, note := (s.entry c).note, vel := (s.entry c).vel, stamp := (s.entry c).stamp } ∧
          (∀ d : Chan, d ≠ c → t.entry d = s.entry d) ∧
          (c.index.val ≤ 4 → WritesExactly [(.status, statusNumber t)] [] s t) ∧
          (4 < c.index.val → s.expEn = false → WritesExactly [] [] s t) ∧
          (s.expEn = true → ∀ r : Reg,
            (c = .expPulse1 ∧ r = .x1Phi) ∨ (c = .expPulse2 ∧ r = .x2Phi) ∨ (c = .expSawtooth ∧ r = .sawPhi) →
            WritesExactly [(r, (s.image r).toNat % 128 + 128 * e.toNat)] [] s t) ∧
          t = { s with ch := t.ch, img := t.img, trace := t.trace }))

/-- R182: SET_EXPANSION_ENABLED. -/
def Obligations.SetExpansionEnabledSwitchesTheUnit : Prop :=
  ∀ (s : State) (b : BitVec 8) (e : Bool), s.fault = false → (e = true ↔ b.toNat ≠ 0) →
    (s.expEn = e → exec (.setExpansionEnabled b) s = .next s) ∧
    (s.expEn = false → e = true → exec (.setExpansionEnabled b) s = .next { s with expEn := true }) ∧
    (s.expEn = true → e = false →
      ∃ t, exec (.setExpansionEnabled b) s = .next t ∧ t.expEn = false ∧
        (∀ c : Chan, t.entry c = if c.index.val ≤ 4 then s.entry c else releasedEntry (s.entry c)) ∧
        t.trace = s.trace ++ [.memWrite 0x9002 0x00, .memWrite 0xA002 0x00, .memWrite 0xB002 0x00] ∧
        (∀ r : Reg, t.image r = if r = .x1Phi ∨ r = .x2Phi ∨ r = .sawPhi then 0x00 else s.image r) ∧
        t = { s with ch := t.ch, expEn := t.expEn, img := t.img, trace := t.trace })

/-! ### Voice Allocator -/

/-- R206 (with R202 and R205): in FixedMono mode NOTE_ON binds the first channel of the active melodic set. -/
def Obligations.FixedMonoBindsTheFirstActiveChannel : Prop :=
  ∀ (s : State) (hint : BitVec 4) (note vel : BitVec 8), Invariants s → s.fault = false → s.mode = .fixedMono →
    ∃ c t, exec (.noteOn hint note vel) s = .next t ∧ s.active.head? = some c ∧
      BoundAt c (clampedNote note) (clampedVelocity vel) s t

/-- R207 (with R202, R204 and R205): in RoundRobin mode NOTE_ON binds the first active channel that already sounds the note,
else the first free one, else the one with the smallest stamp. -/
def Obligations.RoundRobinRetriggersElseFreeElseSteals : Prop :=
  ∀ (s : State) (hint : BitVec 4) (note vel : BitVec 8), Invariants s → s.fault = false → s.mode = .roundRobin →
    ∃ c t, exec (.noteOn hint note vel) s = .next t ∧ c ∈ s.active ∧
      ((∃ d ∈ s.active, (s.entry d).note = some (clampedNote note)) →
        FirstWith (fun d => (s.entry d).note = some (clampedNote note)) s.active c) ∧
      ((∀ d ∈ s.active, (s.entry d).note ≠ some (clampedNote note)) → FreeOrOldest s s.active c) ∧
      BoundAt c (clampedNote note) (clampedVelocity vel) s t

/-- R208 (with R202, R204 and R205): in PitchSplit mode NOTE_ON binds the first free channel of the note's group, else the one
with the smallest stamp. -/
def Obligations.PitchSplitStaysInItsGroup : Prop :=
  ∀ (s : State) (hint : BitVec 4) (note vel : BitVec 8) (g : List Chan), s.fault = false → s.mode = .pitchSplit →
    g = (if (clampedNote note).val < s.split.val then
          (if s.expEn then [.triangle, .expSawtooth] else [.triangle])
        else (if s.expEn then [.pulse1, .pulse2, .expPulse1, .expPulse2] else [.pulse1, .pulse2])) →
    ∃ c t, exec (.noteOn hint note vel) s = .next t ∧ c ∈ g ∧ FreeOrOldest s g c ∧
      BoundAt c (clampedNote note) (clampedVelocity vel) s t

/-- R209 and R212 (with R202 and R205): in MidiChannelSplit mode NOTE_ON binds the hint's channel, or its fallback while the
expansion unit is off; a hint with no entry does nothing and answers −1. -/
def Obligations.MidiChannelSplitFollowsTheHint : Prop :=
  ∀ (s : State) (hint : BitVec 4) (note vel : BitVec 8), s.fault = false → s.mode = .midiChannelSplit →
    (∀ primary fallback : Chan,
      (hint.toNat, primary.index.val, fallback.index.val) ∈
        [(0, 0, 0), (1, 1, 1), (2, 2, 2), (3, 5, 0), (4, 6, 1), (5, 7, 2), (9, 3, 3)] →
      ∃ t, exec (.noteOn hint note vel) s = .next t ∧
        BoundAt (if primary.index.val < 5 ∨ s.expEn = true then primary else fallback)
          (clampedNote note) (clampedVelocity vel) s t) ∧
    (hint.toNat ∈ [6, 7, 8, 10, 11, 12, 13, 14, 15] →
      exec (.noteOn hint note vel) s = .next { s with trace := s.trace ++ [.respond 0xFF] })

/-- R210 (with R202 and R205): in Unison mode NOTE_ON binds every channel of the active melodic set in its order, each with
its own eviction and its own stamp, and answers the first. -/
def Obligations.UnisonBindsEveryActiveChannel : Prop :=
  ∀ (s : State) (hint : BitVec 4) (note vel : BitVec 8), Invariants s → s.fault = false → s.mode = .unison →
    ∃ c t, exec (.noteOn hint note vel) s = .next t ∧ s.active.head? = some c ∧
      (∀ (j : Nat) (hj : j < s.active.length), t.entry s.active[j] =
        { enabled := (s.entry s.active[j]).enabled, note := some (clampedNote note), vel := clampedVelocity vel,
          stamp := s.stampCounter + j + 1 }) ∧
      (∀ d, d ∉ s.active → t.entry d = s.entry d) ∧
      t.stampCounter = s.stampCounter + s.active.length ∧
      WritesExactly
        (s.active.flatMap fun d => evictBytes s d ++ onBytes s (clampedNote note) (clampedVelocity vel) d)
        [.respond (BitVec.ofNat 8 c.index.val)] s t ∧
      KeepsSettings s t

/-- The property the document states of RoundRobin (R207): two NOTE_ONs of one note with no NOTE_OFF between answer the same
channel. -/
def Obligations.RetriggerAnswersTheSameChannel : Prop :=
  ∀ (s t u : State) (h k : BitVec 4) (note v w : BitVec 8), Invariants s → s.fault = false → s.mode = .roundRobin →
    exec (.noteOn h note v) s = .next t → exec (.noteOn k note w) t = .next u →
    ∃ c : Chan, c ∈ s.active ∧ t.trace.getLast? = some (.respond (BitVec.ofNat 8 c.index.val)) ∧
      u.trace.getLast? = some (.respond (BitVec.ofNat 8 c.index.val)) ∧
      (u.entry c).stamp = (t.entry c).stamp + 1

/-- R211: velocity 0 binds: after such a NOTE_ON, GET_CHANNEL finds the note. -/
def Obligations.VelocityZeroStillBinds : Prop :=
  ∀ (s : State) (hint : BitVec 4) (note : BitVec 8), Invariants s → s.fault = false → s.mode ≠ .midiChannelSplit →
    ∃ (t u : State) (c : Chan), exec (.noteOn hint note 0) s = .next t ∧
      (t.entry c).note = some (clampedNote note) ∧ (t.entry c).vel = 0 ∧
      exec (.getChannel note) t = .next u ∧ ∃ d : Chan,
        u.trace = t.trace ++ [.respond (BitVec.ofNat 8 d.index.val)] ∧ (t.entry d).note = some (clampedNote note)

/-- R213 (with R203): NOTE_OFF releases exactly the channels bound to the note, in ascending index, with one note-off write
each. -/
def Obligations.NoteOffReleasesEveryHolder : Prop :=
  ∀ (s : State) (hint : BitVec 4) (note : BitVec 8), s.fault = false →
    ∃ t, exec (.noteOff hint note) s = .next t ∧
      ReleasedExactly (fun c => decide ((s.entry c).note = some (clampedNote note))) s t

/-- The property the document states of NOTE_OFF (R213): NOTE_ON and then NOTE_OFF of the same note leave no channel with
it. -/
def Obligations.NoteOffAfterNoteOnLeavesNoHolder : Prop :=
  ∀ (s t u : State) (h k : BitVec 4) (note vel : BitVec 8), s.fault = false →
    exec (.noteOn h note vel) s = .next t → exec (.noteOff k note) t = .next u →
    ∀ c : Chan, (u.entry c).note ≠ some (clampedNote note) ∧
      ((t.entry c).note = some (clampedNote note) → (u.entry c).note = none)

/-- R214 (with R203): ALL_NOTES_OFF releases exactly the sounding channels; a second one changes and writes nothing. -/
def Obligations.AllNotesOffReleasesAndIsIdempotent : Prop :=
  ∀ s : State, s.fault = false →
    ∃ t, exec .allNotesOff s = .next t ∧ ReleasedExactly (fun c => decide ((s.entry c).note ≠ none)) s t ∧
      (∀ c : Chan, (t.entry c).note = none) ∧ exec .allNotesOff t = .next t

/-- R215 (and R99): GET_CHANNEL answers the smallest index holding the note, or −1, and changes nothing. -/
def Obligations.GetChannelAnswersTheSmallestHolder : Prop :=
  ∀ (s : State) (note : BitVec 8), s.fault = false →
    ((∀ c : Chan, (s.entry c).note ≠ some (clampedNote note)) →
      exec (.getChannel note) s = .next { s with trace := s.trace ++ [.respond 0xFF] }) ∧
    (∀ c : Chan, (s.entry c).note = some (clampedNote note) →
      (∀ d : Chan, d.index < c.index → (s.entry d).note ≠ some (clampedNote note)) →
      exec (.getChannel note) s = .next { s with trace := s.trace ++ [.respond (BitVec.ofNat 8 c.index.val)] })

/-- R216 (and R220): SET_ALLOC_MODE sets the mode and nothing else; above 4 it does nothing. -/
def Obligations.SetAllocModeSetsTheModeOnly : Prop :=
  ∀ (s : State) (m : BitVec 8), s.fault = false →
    (∀ mode : Mode, mode.number = m.toNat → exec (.setAllocMode m) s = .next { s with mode := mode }) ∧
    (4 < m.toNat → exec (.setAllocMode m) s = .next s)

/-- R217 (and R96, R220): SET_SPLIT_POINT sets the split point to the clamped note and nothing else. -/
def Obligations.SetSplitPointSetsTheSplitOnly : Prop :=
  ∀ (s : State) (note : BitVec 8), s.fault = false →
    exec (.setSplitPoint note) s = .next { s with split := clampedNote note }

/-- R218 (and R98, R220): SET_CHANNEL_ORDER stores its six entries when they are a permutation of {0, 1, 2, 5, 6, 7} and does
nothing otherwise. -/
def Obligations.SetChannelOrderTakesPermutationsOnly : Prop :=
  ∀ (s : State) (imm : BitVec 24), s.fault = false →
    let entries := (List.range 6).map fun j => imm.toNat / 2 ^ (20 - 4 * j) % 16
    (∀ order : Vector Chan 6, order.toList.map (fun c => c.index.val) = entries → entries.Perm [0, 1, 2, 5, 6, 7] →
      exec (.setChannelOrder imm) s = .next { s with order := order }) ∧
    (entries.Perm [0, 1, 2, 5, 6, 7] → ∃ order : Vector Chan 6, order.toList.map (fun c => c.index.val) = entries) ∧
    (¬ entries.Perm [0, 1, 2, 5, 6, 7] → exec (.setChannelOrder imm) s = .next s)

/-! ### Parameters -/

/-- R66: a core built with another address map sends the same traces up to renaming of addresses, and ends in the same
state. -/
def Obligations.AnotherAddressMapOnlyRenames : Prop :=
  ∀ (cfg : Config) (addr : Reg → Addr) (f : Addr → Addr) (i : Instr) (s t : State),
    (∀ r, addr r = f (cfg.addr r)) → execWith cfg i s = .next t →
    execWith { cfg with addr := addr } i { s with trace := s.trace.map (Event.renamed f) }
      = .next { t with trace := t.trace.map (Event.renamed f) }

/-- R10 and U12: exec is the parametric core at the default parameters, which are legal. -/
def Obligations.ExecIsTheCoreAtLegalDefaults : Prop :=
  defaultConfig.wellFormed = true ∧ ∀ (i : Instr) (s : State), exec i s = execWith defaultConfig i s

/-! ### Safe runs -/

/-- R250 and R254, "no TICK is reached with `init` = 0": from an initialised running core, a list of commands without `INIT 0`
runs to its end and leaves the core running and initialised. -/
def Obligations.RunsWithoutInitZeroStaySafe : Prop :=
  ∀ (is : List Instr) (s : State), s.running → s.init = true → (∀ i ∈ is, i ≠ .init 0) →
    ∃ t, execAll is s = .next t ∧ t.running ∧ t.init = true
end

