-- ==== Sys2Proof/Laws/State.lean ====
section
/-! SUPPORT. One lemma per field per update of State, and the read-after-write laws of the table and the image. -/

namespace Sys2Proof.Machine

/-! ### State.setEntry -/

@[simp] theorem State.setEntry_mode (s : State) (c : Chan) (e : Entry) : (s.setEntry c e).mode = s.mode := rfl
@[simp] theorem State.setEntry_split (s : State) (c : Chan) (e : Entry) : (s.setEntry c e).split = s.split := rfl
@[simp] theorem State.setEntry_order (s : State) (c : Chan) (e : Entry) : (s.setEntry c e).order = s.order := rfl
@[simp] theorem State.setEntry_duty (s : State) (c : Chan) (e : Entry) : (s.setEntry c e).duty = s.duty := rfl
@[simp] theorem State.setEntry_xduty (s : State) (c : Chan) (e : Entry) : (s.setEntry c e).xduty = s.xduty := rfl
@[simp] theorem State.setEntry_noiseMode (s : State) (c : Chan) (e : Entry) : (s.setEntry c e).noiseMode = s.noiseMode := rfl
@[simp] theorem State.setEntry_expEn (s : State) (c : Chan) (e : Entry) : (s.setEntry c e).expEn = s.expEn := rfl
@[simp] theorem State.setEntry_sr (s : State) (c : Chan) (e : Entry) : (s.setEntry c e).sr = s.sr := rfl
@[simp] theorem State.setEntry_acc (s : State) (c : Chan) (e : Entry) : (s.setEntry c e).acc = s.acc := rfl
@[simp] theorem State.setEntry_img (s : State) (c : Chan) (e : Entry) : (s.setEntry c e).img = s.img := rfl
@[simp] theorem State.setEntry_stampCounter (s : State) (c : Chan) (e : Entry) : (s.setEntry c e).stampCounter = s.stampCounter := rfl
@[simp] theorem State.setEntry_init (s : State) (c : Chan) (e : Entry) : (s.setEntry c e).init = s.init := rfl
@[simp] theorem State.setEntry_fault (s : State) (c : Chan) (e : Entry) : (s.setEntry c e).fault = s.fault := rfl
@[simp] theorem State.setEntry_input (s : State) (c : Chan) (e : Entry) : (s.setEntry c e).input = s.input := rfl
@[simp] theorem State.setEntry_trace (s : State) (c : Chan) (e : Entry) : (s.setEntry c e).trace = s.trace := rfl

/-! ### State.setImage -/

@[simp] theorem State.setImage_ch (s : State) (r : Reg) (v : Byte) : (s.setImage r v).ch = s.ch := rfl
@[simp] theorem State.setImage_mode (s : State) (r : Reg) (v : Byte) : (s.setImage r v).mode = s.mode := rfl
@[simp] theorem State.setImage_split (s : State) (r : Reg) (v : Byte) : (s.setImage r v).split = s.split := rfl
@[simp] theorem State.setImage_order (s : State) (r : Reg) (v : Byte) : (s.setImage r v).order = s.order := rfl
@[simp] theorem State.setImage_duty (s : State) (r : Reg) (v : Byte) : (s.setImage r v).duty = s.duty := rfl
@[simp] theorem State.setImage_xduty (s : State) (r : Reg) (v : Byte) : (s.setImage r v).xduty = s.xduty := rfl
@[simp] theorem State.setImage_noiseMode (s : State) (r : Reg) (v : Byte) : (s.setImage r v).noiseMode = s.noiseMode := rfl
@[simp] theorem State.setImage_expEn (s : State) (r : Reg) (v : Byte) : (s.setImage r v).expEn = s.expEn := rfl
@[simp] theorem State.setImage_sr (s : State) (r : Reg) (v : Byte) : (s.setImage r v).sr = s.sr := rfl
@[simp] theorem State.setImage_acc (s : State) (r : Reg) (v : Byte) : (s.setImage r v).acc = s.acc := rfl
@[simp] theorem State.setImage_stampCounter (s : State) (r : Reg) (v : Byte) : (s.setImage r v).stampCounter = s.stampCounter := rfl
@[simp] theorem State.setImage_init (s : State) (r : Reg) (v : Byte) : (s.setImage r v).init = s.init := rfl
@[simp] theorem State.setImage_fault (s : State) (r : Reg) (v : Byte) : (s.setImage r v).fault = s.fault := rfl
@[simp] theorem State.setImage_input (s : State) (r : Reg) (v : Byte) : (s.setImage r v).input = s.input := rfl
@[simp] theorem State.setImage_trace (s : State) (r : Reg) (v : Byte) : (s.setImage r v).trace = s.trace := rfl

/-! ### State.clearImage -/

@[simp] theorem State.clearImage_ch (s : State) : (s.clearImage).ch = s.ch := rfl
@[simp] theorem State.clearImage_mode (s : State) : (s.clearImage).mode = s.mode := rfl
@[simp] theorem State.clearImage_split (s : State) : (s.clearImage).split = s.split := rfl
@[simp] theorem State.clearImage_order (s : State) : (s.clearImage).order = s.order := rfl
@[simp] theorem State.clearImage_duty (s : State) : (s.clearImage).duty = s.duty := rfl
@[simp] theorem State.clearImage_xduty (s : State) : (s.clearImage).xduty = s.xduty := rfl
@[simp] theorem State.clearImage_noiseMode (s : State) : (s.clearImage).noiseMode = s.noiseMode := rfl
@[simp] theorem State.clearImage_expEn (s : State) : (s.clearImage).expEn = s.expEn := rfl
@[simp] theorem State.clearImage_sr (s : State) : (s.clearImage).sr = s.sr := rfl
@[simp] theorem State.clearImage_acc (s : State) : (s.clearImage).acc = s.acc := rfl
@[simp] theorem State.clearImage_stampCounter (s : State) : (s.clearImage).stampCounter = s.stampCounter := rfl
@[simp] theorem State.clearImage_init (s : State) : (s.clearImage).init = s.init := rfl
@[simp] theorem State.clearImage_fault (s : State) : (s.clearImage).fault = s.fault := rfl
@[simp] theorem State.clearImage_input (s : State) : (s.clearImage).input = s.input := rfl
@[simp] theorem State.clearImage_trace (s : State) : (s.clearImage).trace = s.trace := rfl

/-! ### emit -/

@[simp] theorem emit_ch (e : Event) (s : State) : (emit e s).ch = s.ch := rfl
@[simp] theorem emit_mode (e : Event) (s : State) : (emit e s).mode = s.mode := rfl
@[simp] theorem emit_split (e : Event) (s : State) : (emit e s).split = s.split := rfl
@[simp] theorem emit_order (e : Event) (s : State) : (emit e s).order = s.order := rfl
@[simp] theorem emit_duty (e : Event) (s : State) : (emit e s).duty = s.duty := rfl
@[simp] theorem emit_xduty (e : Event) (s : State) : (emit e s).xduty = s.xduty := rfl
@[simp] theorem emit_noiseMode (e : Event) (s : State) : (emit e s).noiseMode = s.noiseMode := rfl
@[simp] theorem emit_expEn (e : Event) (s : State) : (emit e s).expEn = s.expEn := rfl
@[simp] theorem emit_sr (e : Event) (s : State) : (emit e s).sr = s.sr := rfl
@[simp] theorem emit_acc (e : Event) (s : State) : (emit e s).acc = s.acc := rfl
@[simp] theorem emit_img (e : Event) (s : State) : (emit e s).img = s.img := rfl
@[simp] theorem emit_stampCounter (e : Event) (s : State) : (emit e s).stampCounter = s.stampCounter := rfl
@[simp] theorem emit_init (e : Event) (s : State) : (emit e s).init = s.init := rfl
@[simp] theorem emit_fault (e : Event) (s : State) : (emit e s).fault = s.fault := rfl
@[simp] theorem emit_input (e : Event) (s : State) : (emit e s).input = s.input := rfl

/-! ### takeException -/

@[simp] theorem takeException_ch (k : Cause) (s : State) : (takeException k s).ch = s.ch := by cases k; rfl
@[simp] theorem takeException_mode (k : Cause) (s : State) : (takeException k s).mode = s.mode := by cases k; rfl
@[simp] theorem takeException_split (k : Cause) (s : State) : (takeException k s).split = s.split := by cases k; rfl
@[simp] theorem takeException_order (k : Cause) (s : State) : (takeException k s).order = s.order := by cases k; rfl
@[simp] theorem takeException_duty (k : Cause) (s : State) : (takeException k s).duty = s.duty := by cases k; rfl
@[simp] theorem takeException_xduty (k : Cause) (s : State) : (takeException k s).xduty = s.xduty := by cases k; rfl
@[simp] theorem takeException_noiseMode (k : Cause) (s : State) : (takeException k s).noiseMode = s.noiseMode := by cases k; rfl
@[simp] theorem takeException_expEn (k : Cause) (s : State) : (takeException k s).expEn = s.expEn := by cases k; rfl
@[simp] theorem takeException_sr (k : Cause) (s : State) : (takeException k s).sr = s.sr := by cases k; rfl
@[simp] theorem takeException_acc (k : Cause) (s : State) : (takeException k s).acc = s.acc := by cases k; rfl
@[simp] theorem takeException_img (k : Cause) (s : State) : (takeException k s).img = s.img := by cases k; rfl
@[simp] theorem takeException_stampCounter (k : Cause) (s : State) : (takeException k s).stampCounter = s.stampCounter := by cases k; rfl
@[simp] theorem takeException_init (k : Cause) (s : State) : (takeException k s).init = s.init := by cases k; rfl
@[simp] theorem takeException_input (k : Cause) (s : State) : (takeException k s).input = s.input := by cases k; rfl
@[simp] theorem takeException_trace (k : Cause) (s : State) : (takeException k s).trace = s.trace := by cases k; rfl

@[simp] theorem emit_trace (e : Event) (s : State) : (emit e s).trace = s.trace ++ [e] := rfl

@[simp] theorem takeException_fault (k : Cause) (s : State) : (takeException k s).fault = true := by cases k; rfl

/-! ### The names -/

theorem Chan.index_injective {c d : Chan} (h : c.index = d.index) : c = d := by
  revert h; cases c <;> cases d <;> decide

theorem Reg.index_injective {r q : Reg} (h : r.index = q.index) : r = q := by
  revert h; cases r <;> cases q <;> decide

@[simp] theorem Chan.index_eq_iff (c d : Chan) : c.index = d.index ↔ c = d :=
  ⟨Chan.index_injective, fun h => h ▸ rfl⟩

@[simp] theorem Reg.index_eq_iff (r q : Reg) : r.index = q.index ↔ r = q :=
  ⟨Reg.index_injective, fun h => h ▸ rfl⟩

theorem Chan.mem_all (c : Chan) : c ∈ Chan.all := by cases c <;> decide

theorem Reg.mem_all (r : Reg) : r ∈ Reg.all := by cases r <;> decide

theorem Chan.all_nodup : Chan.all.Nodup := by decide

/-! ### Reading the table and the image -/

/-- A state written out as its fields: its entry is read from the table field. -/
@[simp] theorem State.entry_mk (ch : Vector Entry 8) (mode : Mode) (split : Note) (order : Vector Chan 6)
    (duty : Vector (BitVec 2) 2) (xduty : Vector (BitVec 3) 2) (noiseMode expEn : Bool) (sr : BitVec 24) (acc : Nat)
    (img : Vector Byte 22) (sc : Nat) (init fault : Bool) (input : List PortInput) (trace : List Event) (c : Chan) :
    State.entry ⟨ch, mode, split, order, duty, xduty, noiseMode, expEn, sr, acc, img, sc, init, fault, input, trace⟩ c
      = ch.get c.index := rfl

/-- A state written out as its fields: its image is read from the image field. -/
@[simp] theorem State.image_mk (ch : Vector Entry 8) (mode : Mode) (split : Note) (order : Vector Chan 6)
    (duty : Vector (BitVec 2) 2) (xduty : Vector (BitVec 3) 2) (noiseMode expEn : Bool) (sr : BitVec 24) (acc : Nat)
    (img : Vector Byte 22) (sc : Nat) (init fault : Bool) (input : List PortInput) (trace : List Event) (r : Reg) :
    State.image ⟨ch, mode, split, order, duty, xduty, noiseMode, expEn, sr, acc, img, sc, init, fault, input, trace⟩ r
      = img.get r.index := rfl

@[simp] theorem State.ch_get (s : State) (c : Chan) : s.ch.get c.index = s.entry c := rfl

@[simp] theorem State.img_get (s : State) (r : Reg) : s.img.get r.index = s.image r := rfl

/-- Reading an entry after writing one. -/
@[simp] theorem State.entry_setEntry (s : State) (c d : Chan) (e : Entry) :
    (s.setEntry c e).entry d = if d = c then e else s.entry d := by
  simp only [State.entry, State.setEntry, Vector.get_eq_getElem, Vector.getElem_set]
  by_cases h : d = c
  · subst h; simp
  · have : c.index.val ≠ d.index.val := fun hv => h (Chan.index_injective (Fin.ext hv)).symm
    simp [h, this]

/-- Reading an image byte after writing one. -/
@[simp] theorem State.image_setImage (s : State) (r q : Reg) (v : Byte) :
    (s.setImage r v).image q = if q = r then v else s.image q := by
  simp only [State.image, State.setImage, Vector.get_eq_getElem, Vector.getElem_set]
  by_cases h : q = r
  · subst h; simp
  · have : r.index.val ≠ q.index.val := fun hv => h (Reg.index_injective (Fin.ext hv)).symm
    simp [h, this]

@[simp] theorem State.image_clearImage (s : State) (r : Reg) : s.clearImage.image r = 0 := by
  simp [State.image, State.clearImage, Vector.get_eq_getElem]

@[simp] theorem State.image_setEntry (s : State) (c : Chan) (e : Entry) (r : Reg) :
    (s.setEntry c e).image r = s.image r := rfl

@[simp] theorem State.entry_setImage (s : State) (r : Reg) (v : Byte) (c : Chan) :
    (s.setImage r v).entry c = s.entry c := rfl

@[simp] theorem State.entry_clearImage (s : State) (c : Chan) : s.clearImage.entry c = s.entry c := rfl

@[simp] theorem emit_entry (e : Event) (s : State) (c : Chan) : (emit e s).entry c = s.entry c := rfl

@[simp] theorem emit_image (e : Event) (s : State) (r : Reg) : (emit e s).image r = s.image r := rfl

@[simp] theorem takeException_entry (k : Cause) (s : State) (c : Chan) : (takeException k s).entry c = s.entry c := by
  cases k; rfl

@[simp] theorem takeException_image (k : Cause) (s : State) (r : Reg) : (takeException k s).image r = s.image r := by
  cases k; rfl

/-- Two tables that agree at every channel are equal. -/
theorem table_ext {v w : Vector Entry 8} (h : ∀ c : Chan, v.get c.index = w.get c.index) : v = w := by
  apply Vector.ext
  intro i hi
  have key : ∀ k : Fin 8, v.get k = w.get k := by
    intro k
    fin_cases k
    · exact h .pulse1
    · exact h .pulse2
    · exact h .triangle
    · exact h .noise
    · exact h .sample
    · exact h .expPulse1
    · exact h .expPulse2
    · exact h .expSawtooth
  simpa [Vector.get_eq_getElem] using key ⟨i, hi⟩

/-- Writing the entry a channel already has changes nothing. -/
theorem State.setEntry_self (s : State) (c : Chan) : s.setEntry c (s.entry c) = s := by
  have h : (s.setEntry c (s.entry c)).ch = s.ch := by
    apply table_ext
    intro d
    have := State.entry_setEntry s c d (s.entry c)
    simp only [State.entry] at this ⊢
    rw [this]; split
    · subst_vars; rfl
    · rfl
  calc s.setEntry c (s.entry c) = { s with ch := (s.setEntry c (s.entry c)).ch } := rfl
    _ = s := by rw [h]

/-! ### Reset -/

/-- Every entry at reset is silent with velocity and stamp 0; only SampleChannel is disabled (R35). -/
theorem State.reset_entry (c : Chan) : State.reset.entry c = Entry.atReset (c != .sample) := by
  cases c <;> rfl

theorem State.reset_image (r : Reg) : State.reset.image r = 0 := by
  simp [State.image, State.reset, Vector.get_eq_getElem]

@[simp] theorem hardwareReset_entry (s : State) (c : Chan) : (hardwareReset s).entry c = State.reset.entry c := rfl

@[simp] theorem hardwareReset_image (s : State) (r : Reg) : (hardwareReset s).image r = State.reset.image r := rfl

@[simp] theorem hardwareReset_trace (s : State) : (hardwareReset s).trace = s.trace := rfl

@[simp] theorem hardwareReset_input (s : State) : (hardwareReset s).input = s.input := rfl

end Sys2Proof.Machine
end

