-- ==== Sys2Proof/Laws/Ops.lean ====
section
/-! SUPPORT. What the shared operations do, said once: bus writes, responses, the `fault` test and the link between
exec and the parametric effects. -/

namespace Sys2Proof.Machine

/-! ### Bus writes -/

theorem busWrites_nil (cfg : Config) (s : State) : busWrites cfg [] s = s := rfl

theorem busWrites_cons (cfg : Config) (w : Reg × Byte) (ws : List (Reg × Byte)) (s : State) :
    busWrites cfg (w :: ws) s = busWrites cfg ws (busWrite cfg w.1 w.2 s) := rfl

/-- A recipe's writes touch the image and the trace only. -/
theorem busWrites_frame (cfg : Config) (ws : List (Reg × Byte)) (s : State) :
    busWrites cfg ws s = { s with img := (busWrites cfg ws s).img, trace := (busWrites cfg ws s).trace } := by
  induction ws generalizing s with
  | nil => rfl
  | cons w ws ih => rw [busWrites_cons, ih]; rfl

/-- A recipe's writes appear in the trace in order (R80). -/
@[simp] theorem busWrites_trace (cfg : Config) (ws : List (Reg × Byte)) (s : State) :
    (busWrites cfg ws s).trace = s.trace ++ ws.map (fun w => Event.memWrite (cfg.addr w.1) w.2) := by
  induction ws generalizing s with
  | nil => simp [busWrites_nil]
  | cons w ws ih => rw [busWrites_cons, ih]; simp [busWrite]

/-- Each image byte is the last one a recipe wrote there, else the old one (R30, R64). -/
@[simp] theorem busWrites_image (cfg : Config) (ws : List (Reg × Byte)) (s : State) (r : Reg) :
    (busWrites cfg ws s).image r = ws.foldl (fun b w => if w.1 = r then w.2 else b) (s.image r) := by
  induction ws generalizing s with
  | nil => rfl
  | cons w ws ih => rw [busWrites_cons, ih]; simp [busWrite, eq_comm]

@[simp] theorem busWrites_entry (cfg : Config) (ws : List (Reg × Byte)) (s : State) (c : Chan) :
    (busWrites cfg ws s).entry c = s.entry c := by rw [busWrites_frame]; rfl

@[simp] theorem busWrites_ch (cfg : Config) (ws : List (Reg × Byte)) (s : State) :
    (busWrites cfg ws s).ch = s.ch := by rw [busWrites_frame]

@[simp] theorem busWrites_stampCounter (cfg : Config) (ws : List (Reg × Byte)) (s : State) :
    (busWrites cfg ws s).stampCounter = s.stampCounter := by rw [busWrites_frame]

theorem busWrite_eq_busWrites (cfg : Config) (r : Reg) (v : Byte) (s : State) :
    busWrite cfg r v s = busWrites cfg [(r, v)] s := rfl

@[simp] theorem busWrite_trace (cfg : Config) (r : Reg) (v : Byte) (s : State) :
    (busWrite cfg r v s).trace = s.trace ++ [.memWrite (cfg.addr r) v] := rfl

@[simp] theorem busWrite_image (cfg : Config) (r q : Reg) (v : Byte) (s : State) :
    (busWrite cfg r v s).image q = if q = r then v else s.image q := by simp [busWrite]

@[simp] theorem busWrite_entry (cfg : Config) (r : Reg) (v : Byte) (s : State) (c : Chan) :
    (busWrite cfg r v s).entry c = s.entry c := rfl

/-! ### Frames -/

theorem KeepsSettings.refl (s : State) : KeepsSettings s s := rfl

theorem KeepsSettings.trans {s t u : State} (h : KeepsSettings s t) (k : KeepsSettings t u) : KeepsSettings s u := by
  unfold KeepsSettings at *; rw [k, h]

theorem keepsSettings_busWrites (cfg : Config) (ws : List (Reg × Byte)) (s : State) :
    KeepsSettings s (busWrites cfg ws s) := by
  unfold KeepsSettings; rw [busWrites_frame]

theorem keepsSettings_setEntry (s : State) (c : Chan) (e : Entry) : KeepsSettings s (s.setEntry c e) := rfl

theorem keepsSettings_emit (e : Event) (s : State) : KeepsSettings s (emit e s) := rfl

/-- The fields a frame keeps, one by one. -/
theorem KeepsSettings.fields {s t : State} (h : KeepsSettings s t) :
    t.mode = s.mode ∧ t.split = s.split ∧ t.order = s.order ∧ t.duty = s.duty ∧ t.xduty = s.xduty ∧
      t.noiseMode = s.noiseMode ∧ t.expEn = s.expEn ∧ t.sr = s.sr ∧ t.acc = s.acc ∧ t.init = s.init ∧
      t.fault = s.fault ∧ t.input = s.input := by
  unfold KeepsSettings at h; rw [h]; simp

/-! ### The fault test and exec -/

theorem unlessHalted_halted (f : State → State) {s : State} (h : s.fault = true) : unlessHalted f s = .next s := by
  simp [unlessHalted, h]

theorem unlessHalted_running (f : State → State) {s : State} (h : s.fault = false) :
    unlessHalted f s = .next (f s) := by
  simp [unlessHalted, h]

/-- Whatever a command answers is a next state: itself when halted, its effect when not (R254). -/
theorem unlessHalted_next_iff (f : State → State) (s t : State) :
    unlessHalted f s = .next t ↔ (s.fault = true ∧ t = s) ∨ (s.fault = false ∧ t = f s) := by
  cases h : s.fault <;> simp [unlessHalted, h, eq_comm]

/-- exec is the parametric machine at the default parameters (R10). -/
theorem exec_eq_unlessHalted (i : Instr) (s : State) : exec i s = unlessHalted (effect defaultConfig i) s := by
  cases i <;> rfl

theorem exec_running (i : Instr) {s : State} (h : s.fault = false) :
    exec i s = .next (effect defaultConfig i s) := by
  rw [exec_eq_unlessHalted, unlessHalted_running _ h]

theorem exec_halted (i : Instr) {s : State} (h : s.fault = true) : exec i s = .next s := by
  rw [exec_eq_unlessHalted, unlessHalted_halted _ h]

theorem exec_next_iff (i : Instr) (s t : State) :
    exec i s = .next t ↔ (s.fault = true ∧ t = s) ∨ (s.fault = false ∧ t = effect defaultConfig i s) := by
  rw [exec_eq_unlessHalted, unlessHalted_next_iff]

/-- What a step can do: nothing, run a command, skip a reserved word, or reset. -/
theorem step_cases {s t : State} (h : step s = .next t) :
    (s.input = [] ∧ t = s) ∨
    (∃ w rest i, s.input = .command w :: rest ∧ decode w = .command i ∧ exec i { s with input := rest } = .next t) ∨
    (∃ w rest op, s.input = .command w :: rest ∧ decode w = .reserved op ∧ t = { s with input := rest }) ∨
    (∃ rest, s.input = .reset :: rest ∧ t = hardwareReset { s with input := rest }) := by
  unfold step at h
  split at h
  · left; simp_all
  · next w rest hin =>
    unfold runWord at h
    split at h
    · next i hd => exact .inr (.inl ⟨w, rest, i, hin, hd, h⟩)
    · next op hd => exact .inr (.inr (.inl ⟨w, rest, op, hin, hd, by simpa using h.symm⟩))
  · next rest hin => exact .inr (.inr (.inr ⟨rest, hin, by simpa using h.symm⟩))

end Sys2Proof.Machine
end

