-- ==== Sys2Proof/Laws/Recipes.lean ====
section
/-! SUPPORT. The encoder's pure functions: the search of R141 finds the largest fit, and the recipe bytes are the sums of
fields that 20_memory.md R67 to R73 give. -/

namespace Sys2Proof.Machine

/-! ### Period -/

theorem periodFits_iff (a b k : Nat) : periodFits a b k = true ↔ (2 * k + 1) ^ 12 * b ≤ a := by
  simp [periodFits]

/-- The test of R141 is monotone: what fits at `k` fits below. -/
theorem periodFits_of_le {a b j k : Nat} (hjk : j ≤ k) (h : periodFits a b k = true) : periodFits a b j = true := by
  rw [periodFits_iff] at h ⊢
  exact le_trans (Nat.mul_le_mul_right b (Nat.pow_le_pow_left (by omega) 12)) h

/-- The bitwise search answers a fit when it moves, and nothing in its range that fits is larger. -/
theorem largestFit_spec (a b bits k : Nat) :
    k ≤ largestFit a b bits k ∧
    (largestFit a b bits k = k ∨ periodFits a b (largestFit a b bits k) = true) ∧
    ∀ j, periodFits a b j = true → j < k + 2 ^ bits → j ≤ largestFit a b bits k := by
  induction bits generalizing k with
  | zero =>
    refine ⟨le_refl _, .inl rfl, fun j _ hj => ?_⟩
    simp only [Nat.pow_zero] at hj
    simp only [largestFit]; omega
  | succ bits ih =>
    unfold largestFit
    split
    · next hfit =>
      obtain ⟨h1, h2, h3⟩ := ih (k + 2 ^ bits)
      refine ⟨le_trans (Nat.le_add_right _ _) h1, .inr ?_, fun j hj hlt => h3 j hj (by rw [Nat.pow_succ] at hlt; omega)⟩
      rcases h2 with h2 | h2
      · rw [h2]; exact hfit
      · exact h2
    · next hfit =>
      obtain ⟨h1, h2, h3⟩ := ih k
      refine ⟨h1, h2, fun j hj _ => h3 j hj ?_⟩
      by_contra hge
      exact hfit (periodFits_of_le (by omega) hj)

/-- `praw` is the largest fit, or 0 when nothing fits (R141). -/
theorem praw_spec (cfg : Config) (n : Note) (d : Nat) (hden : 0 < periodDen cfg n d) :
    (praw cfg n d = 0 ∨ periodFits (periodNum cfg n) (periodDen cfg n d) (praw cfg n d) = true) ∧
    ∀ j, periodFits (periodNum cfg n) (periodDen cfg n d) j = true → j ≤ praw cfg n d := by
  set a := periodNum cfg n with ha
  set b := periodDen cfg n d with hb
  obtain ⟨-, h2, h3⟩ := largestFit_spec a b (Nat.log2 (a / b) / 12 + 1) 0
  refine ⟨h2, fun j hj => h3 j hj ?_⟩
  rw [periodFits_iff] at hj
  have hq : (2 * j + 1) ^ 12 ≤ a / b := (Nat.le_div_iff_mul_le hden).2 hj
  by_contra hge
  have hpow : (2 ^ (Nat.log2 (a / b) / 12 + 1)) ^ 12 ≤ (2 * j + 1) ^ 12 := Nat.pow_le_pow_left (by omega) 12
  have hlt : a / b < 2 ^ (Nat.log2 (a / b) + 1) := Nat.lt_log2_self
  have hle : 2 ^ (Nat.log2 (a / b) + 1) ≤ (2 ^ (Nat.log2 (a / b) / 12 + 1)) ^ 12 := by
    rw [← Nat.pow_mul]; exact Nat.pow_le_pow_right (by norm_num) (by omega)
  omega

theorem periodDen_pos {cfg : Config} (n : Note) {d : Nat} (hd : 0 < d) (hc : 0 < cfg.mclkDen) :
    0 < periodDen cfg n d := by
  unfold periodDen; positivity

/-! ### Bytes as sums of fields -/

theorem vol4_toNat (v : Velocity) : (vol4 v).toNat = volumeNumber v := by
  unfold vol4 volumeNumber
  rw [BitVec.toNat_ofNat, Nat.mod_eq_of_lt]
  omega

theorem pulseCtl_bits : ∀ (d : BitVec 2) (v : BitVec 4),
    d ++ 0#6 ||| 0x30#8 ||| 0#4 ++ v = BitVec.ofNat 8 (64 * d.toNat + 48 + v.toNat) := by decide

theorem noiseCtl_bits : ∀ v : BitVec 4, 0x30#8 ||| 0#4 ++ v = BitVec.ofNat 8 (48 + v.toNat) := by decide

theorem expPulseCtl_bits : ∀ (d : BitVec 3) (v : BitVec 4),
    0#1 ++ d ++ v = BitVec.ofNat 8 (16 * d.toNat + v.toNat) := by decide

theorem sawCtl_bits : ∀ v : BitVec 4,
    0#2 ++ BitVec.ofNat 6 ((v.toNat <<< 1) &&& 0x3F) = BitVec.ofNat 8 (2 * v.toNat) := by decide

theorem noisePer_bits : ∀ n : Note,
    0#3 ++ noiseIdx n = BitVec.ofNat 7 (15 - n.val / 8) := by decide

theorem noisePerByte_eq (b : Bool) (n : Note) :
    noisePerByte b (noiseIdx n) = BitVec.ofNat 8 (128 * b.toNat + (15 - n.val / 8)) := by
  revert n; cases b <;> decide

theorem lenHigh_bits : ∀ q : Fin 8, 31#5 ++ BitVec.ofNat 3 q.val = BitVec.ofNat 8 (248 + q.val) := by decide

theorem enableHigh_bits : ∀ (b : Bool) (q : Fin 16),
    BitVec.ofBool b ++ 0#3 ++ BitVec.ofNat 4 q.val = BitVec.ofNat 8 (128 * b.toNat + q.val) := by decide

theorem periodLowByte_eq (p : Nat) : periodLowByte p = BitVec.ofNat 8 (p % 256) := by
  apply BitVec.eq_of_toNat_eq; simp [periodLowByte]

theorem basePeriodHighByte_eq {p : Nat} (h : p ≤ 2047) :
    basePeriodHighByte defaultConfig p = BitVec.ofNat 8 (248 + p / 256) := by
  have := lenHigh_bits ⟨p / 256, by omega⟩
  simpa [basePeriodHighByte, defaultConfig, Nat.shiftRight_eq_div_pow] using this

theorem expPeriodHighByte_eq (b : Bool) {p : Nat} (h : p ≤ 4095) :
    expPeriodHighByte b p = BitVec.ofNat 8 (128 * b.toNat + p / 256) := by
  have := enableHigh_bits b ⟨p / 256, by omega⟩
  simpa [expPeriodHighByte, Nat.shiftRight_eq_div_pow] using this

theorem periodNumber_le (n : Note) (d m : Nat) : periodNumber n d m ≤ m := Nat.min_le_right _ _

theorem pulseCtlByte_eq (d : BitVec 2) (v : Velocity) :
    pulseCtlByte defaultConfig d (vol4 v) = BitVec.ofNat 8 (64 * d.toNat + 48 + volumeNumber v) := by
  rw [← vol4_toNat]; exact pulseCtl_bits d (vol4 v)

theorem expPulseCtlByte_eq (d : BitVec 3) (v : Velocity) :
    expPulseCtlByte d (vol4 v) = BitVec.ofNat 8 (16 * d.toNat + volumeNumber v) := by
  rw [← vol4_toNat]; exact expPulseCtl_bits d (vol4 v)

theorem noiseCtlByte_eq (v : Velocity) :
    noiseCtlByte defaultConfig (vol4 v) = BitVec.ofNat 8 (48 + volumeNumber v) := by
  rw [← vol4_toNat]; exact noiseCtl_bits (vol4 v)

theorem sawCtlByte_eq (v : Velocity) :
    sawCtlByte (sawRate defaultConfig v) = BitVec.ofNat 8 (2 * volumeNumber v) := by
  rw [← vol4_toNat]; exact sawCtl_bits (vol4 v)

/-! ### Recipes as sums of fields -/

/-- A list of writes whose bytes are given as numbers. -/
def asBytes (ws : List (Reg × Nat)) : List (Reg × Byte) := ws.map fun w => (w.1, BitVec.ofNat 8 w.2)

theorem asBytes_append (ws vs : List (Reg × Nat)) : asBytes (ws ++ vs) = asBytes ws ++ asBytes vs := by
  simp [asBytes]

/-- The note-on recipes write the bytes of R147 to R150. -/
theorem noteOnWrites_eq (s : State) (n : Note) (v : Velocity) (c : Chan) :
    noteOnWrites defaultConfig s n v c = asBytes (onBytes s n v c) := by
  have hb : tonePeriod defaultConfig n basePulseTone = periodNumber n 16 2047 := rfl
  have ht : tonePeriod defaultConfig n triangleTone = periodNumber n 32 2047 := rfl
  have he : tonePeriod defaultConfig n expPulseTone = periodNumber n 16 4095 := rfl
  have hs : tonePeriod defaultConfig n (sawtoothTone defaultConfig) = periodNumber n 16 4095 := rfl
  have h1 := basePeriodHighByte_eq (periodNumber_le n 16 2047)
  have h2 := basePeriodHighByte_eq (periodNumber_le n 32 2047)
  cases c
  · simp [noteOnWrites, basePulseOn, onBytes, asBytes, hb, h1, pulseCtlByte_eq, periodLowByte_eq]
  · simp [noteOnWrites, basePulseOn, onBytes, asBytes, hb, h1, pulseCtlByte_eq, periodLowByte_eq]
  · simp [noteOnWrites, onBytes, asBytes, ht, h2, periodLowByte_eq]; rfl
  · simp [noteOnWrites, onBytes, asBytes, noiseCtlByte_eq, noisePerByte_eq]; rfl
  · rfl
  · simp [noteOnWrites, expansionOn, onBytes, asBytes, he, expPulseCtlByte_eq, periodLowByte_eq, State.isEnabled,
      expPeriodHighByte_eq _ (periodNumber_le n 16 4095)]
  · simp [noteOnWrites, expansionOn, onBytes, asBytes, he, expPulseCtlByte_eq, periodLowByte_eq, State.isEnabled,
      expPeriodHighByte_eq _ (periodNumber_le n 16 4095)]
  · simp [noteOnWrites, expansionOn, onBytes, asBytes, hs, sawCtlByte_eq, periodLowByte_eq, State.isEnabled,
      expPeriodHighByte_eq _ (periodNumber_le n 16 4095)]

/-- The note-off recipes write the byte of R152. -/
theorem noteOffWrites_eq (s : State) (c : Chan) : noteOffWrites defaultConfig s c = asBytes (offBytes s c) := by
  have hp : ∀ d : BitVec 2, pulseCtlByte defaultConfig d 0#4 = BitVec.ofNat 8 (64 * d.toNat + 48) := by decide
  have hx : ∀ d : BitVec 3, expPulseCtlByte d 0#4 = BitVec.ofNat 8 (16 * d.toNat) := by decide
  cases c
  · simpa [noteOffWrites, offBytes, asBytes] using hp _
  · simpa [noteOffWrites, offBytes, asBytes] using hp _
  · rfl
  · rfl
  · rfl
  · simpa [noteOffWrites, offBytes, asBytes] using hx _
  · simpa [noteOffWrites, offBytes, asBytes] using hx _
  · rfl

/-- What the recipes read of the state: the duties, the noise mode and the enable flag of the channel. -/
theorem noteOnWrites_congr (cfg : Config) {s t : State} (n : Note) (v : Velocity) (c : Chan)
    (hd : t.duty = s.duty) (hx : t.xduty = s.xduty) (hn : t.noiseMode = s.noiseMode)
    (he : (t.entry c).enabled = (s.entry c).enabled) : noteOnWrites cfg t n v c = noteOnWrites cfg s n v c := by
  cases c <;> simp_all [noteOnWrites, State.isEnabled]

theorem noteOffWrites_congr (cfg : Config) {s t : State} (c : Chan) (hd : t.duty = s.duty) (hx : t.xduty = s.xduty) :
    noteOffWrites cfg t c = noteOffWrites cfg s c := by
  cases c <;> simp_all [noteOffWrites]

theorem onBytes_congr {s t : State} (n : Note) (v : Velocity) (c : Chan)
    (hd : t.duty = s.duty) (hx : t.xduty = s.xduty) (hn : t.noiseMode = s.noiseMode)
    (he : (t.entry c).enabled = (s.entry c).enabled) : onBytes t n v c = onBytes s n v c := by
  cases c <;> simp_all [onBytes]

theorem offBytes_congr {s t : State} (c : Chan) (hd : t.duty = s.duty) (hx : t.xduty = s.xduty) :
    offBytes t c = offBytes s c := by
  cases c <;> simp_all [offBytes]

/-! ### Writes given as numbers -/

theorem busWrites_asBytes_trace (ws : List (Reg × Nat)) (s : State) :
    (busWrites defaultConfig (asBytes ws) s).trace = s.trace ++ writeEvents ws := by
  simp only [busWrites_trace, asBytes, writeEvents, List.map_map]; rfl

theorem busWrites_asBytes_image (ws : List (Reg × Nat)) (s : State) (r : Reg) :
    (busWrites defaultConfig (asBytes ws) s).image r = imageAfter ws r (s.image r) := by
  simp [asBytes, imageAfter, List.foldl_map]

theorem writeEvents_append (ws vs : List (Reg × Nat)) : writeEvents (ws ++ vs) = writeEvents ws ++ writeEvents vs := by
  simp [writeEvents]

theorem imageAfter_append (ws vs : List (Reg × Nat)) (r : Reg) (old : Byte) :
    imageAfter (ws ++ vs) r old = imageAfter vs r (imageAfter ws r old) := by
  simp [imageAfter, List.foldl_append]

end Sys2Proof.Machine
end

