-- ==== Sys2Proof/Laws/Allocator.lean ====
section
/-! SUPPORT. What Bind, Release and the scans of the table do, said once each, at the default parameters. -/

namespace Sys2Proof.Machine

/-! ### Bind -/

theorem sounding_iff (s : State) (c : Chan) : s.sounding c = true ↔ (s.entry c).note ≠ none := by
  simp [State.sounding, Option.isSome_iff_ne_none]

theorem evict_eq (c : Chan) (s : State) :
    evict defaultConfig c s = busWrites defaultConfig (asBytes (evictBytes s c)) s := by
  unfold evict evictBytes
  by_cases h : (s.entry c).note = none
  · have : s.sounding c = false := by simp [State.sounding, h]
    simp [h, this, asBytes, busWrites_nil]
  · have : s.sounding c = true := (sounding_iff s c).2 h
    simp only [h, this, if_true, if_false]
    unfold noteOffRecipe; rw [noteOffWrites_eq]

theorem bindVoice_eq (c : Chan) (n : Note) (v : Velocity) (s : State) :
    bindVoice defaultConfig c n v s =
      busWrites defaultConfig (asBytes (onBytes s n v c))
        (stampVoice c n v (busWrites defaultConfig (asBytes (evictBytes s c)) s)) := by
  unfold bindVoice noteOnRecipe
  rw [evict_eq, noteOnWrites_eq, onBytes_congr (s := s)]
  all_goals simp [stampVoice, State.entry_setEntry]
  all_goals rw [busWrites_frame]

/-- Binding leaves the new voice with a fresh stamp in its entry and every other entry as it was (R202). -/
theorem bindVoice_entry (c d : Chan) (n : Note) (v : Velocity) (s : State) :
    (bindVoice defaultConfig c n v s).entry d =
      if d = c then { enabled := (s.entry c).enabled, note := some n, vel := v, stamp := s.stampCounter + 1 }
      else s.entry d := by
  rw [bindVoice_eq, busWrites_entry]
  simp only [stampVoice, State.entry_setEntry]
  split
  · simp
  · rw [State.entry_mk, State.ch_get, busWrites_entry]

@[simp] theorem bindVoice_stampCounter (c : Chan) (n : Note) (v : Velocity) (s : State) :
    (bindVoice defaultConfig c n v s).stampCounter = s.stampCounter + 1 := by
  rw [bindVoice_eq]; simp [stampVoice]

/-- Binding writes the note-off byte of an occupant, then the three note-on bytes (R202). -/
theorem bindVoice_trace (c : Chan) (n : Note) (v : Velocity) (s : State) :
    (bindVoice defaultConfig c n v s).trace = s.trace ++ writeEvents (evictBytes s c ++ onBytes s n v c) := by
  rw [bindVoice_eq, busWrites_asBytes_trace]
  simp only [stampVoice, State.setEntry_trace]
  rw [busWrites_asBytes_trace, writeEvents_append, List.append_assoc]

theorem bindVoice_image (c : Chan) (n : Note) (v : Velocity) (s : State) (r : Reg) :
    (bindVoice defaultConfig c n v s).image r = imageAfter (evictBytes s c ++ onBytes s n v c) r (s.image r) := by
  rw [bindVoice_eq, busWrites_asBytes_image, imageAfter_append]
  congr 1
  simp only [stampVoice, State.image_setEntry, State.image_mk, State.img_get]
  rw [busWrites_asBytes_image]

theorem keepsSettings_bindVoice (c : Chan) (n : Note) (v : Velocity) (s : State) :
    KeepsSettings s (bindVoice defaultConfig c n v s) := by
  rw [bindVoice_eq]
  refine KeepsSettings.trans ?_ (keepsSettings_busWrites _ _ _)
  exact (keepsSettings_busWrites defaultConfig (asBytes (evictBytes s c)) s).trans rfl

theorem evictBytes_congr {s t : State} (c : Chan) (hd : t.duty = s.duty) (hx : t.xduty = s.xduty)
    (he : t.entry c = s.entry c) : evictBytes t c = evictBytes s c := by
  unfold evictBytes; rw [he, offBytes_congr c hd hx]

/-- A state with one more response: the tail of NOTE_ON and GET_CHANNEL. -/
theorem respond_eq (c : Option Chan) (s : State) :
    respond c s = { s with trace := s.trace ++ [.respond (responseValue c)] } := rfl

/-- One bind and its response leave exactly what `BoundAt` says. -/
theorem boundAt_bindVoice (c : Chan) (n : Note) (v : Velocity) (s : State) :
    BoundAt c n v s (respond (some c) (bindVoice defaultConfig c n v s)) := by
  refine ⟨?_, fun d hd => ?_, ?_, ⟨?_, fun r => ?_⟩, ?_⟩
  · simp [respond, bindVoice_entry]
  · simp [respond, bindVoice_entry, hd]
  · simp [respond]
  · simp [respond, bindVoice_trace, responseValue]
  · simp [respond, bindVoice_image]
  · exact (keepsSettings_bindVoice c n v s).trans (keepsSettings_emit _ _)

/-- NOTE_ON with one target: exactly one bind and its response (R205). -/
theorem startNote_single (hint : BitVec 4) (note vel : BitVec 8) (s : State) (c : Chan)
    (h : targets defaultConfig s hint (noteOperand note) = [c]) :
    BoundAt c (noteOperand note) (velocityOperand vel) s (startNote defaultConfig hint note vel s) := by
  unfold startNote
  rw [h]
  exact boundAt_bindVoice c _ _ s

/-! ### Binding a list of channels -/

theorem bindAll_cons (c : Chan) (t : List Chan) (n : Note) (v : Velocity) (s : State) :
    bindAll defaultConfig (c :: t) n v s = bindAll defaultConfig t n v (bindVoice defaultConfig c n v s) := rfl

theorem keepsSettings_bindAll (t : List Chan) (n : Note) (v : Velocity) (s : State) :
    KeepsSettings s (bindAll defaultConfig t n v s) := by
  induction t generalizing s with
  | nil => exact KeepsSettings.refl s
  | cons c t ih => rw [bindAll_cons]; exact (keepsSettings_bindVoice c n v s).trans (ih _)

@[simp] theorem bindAll_stampCounter (t : List Chan) (n : Note) (v : Velocity) (s : State) :
    (bindAll defaultConfig t n v s).stampCounter = s.stampCounter + t.length := by
  induction t generalizing s with
  | nil => rfl
  | cons c t ih => rw [bindAll_cons, ih]; simp; omega

theorem bindAll_entry_of_not_mem (t : List Chan) (n : Note) (v : Velocity) (s : State) {d : Chan} (h : d ∉ t) :
    (bindAll defaultConfig t n v s).entry d = s.entry d := by
  induction t generalizing s with
  | nil => rfl
  | cons c t ih =>
    have hne : d ≠ c := fun he => h (he ▸ List.mem_cons_self)
    have hmem : d ∉ t := fun hm => h (List.mem_cons_of_mem _ hm)
    rw [bindAll_cons, ih _ hmem]
    simp [bindVoice_entry, hne]

/-- Each of several distinct channels gets the voice and the stamp of its turn (R205, R210). -/
theorem bindAll_entry_getElem (t : List Chan) (n : Note) (v : Velocity) (s : State) (hnd : t.Nodup) (j : Nat)
    (hj : j < t.length) :
    (bindAll defaultConfig t n v s).entry t[j] =
      { enabled := (s.entry t[j]).enabled, note := some n, vel := v, stamp := s.stampCounter + j + 1 } := by
  induction t generalizing s j with
  | nil => simp at hj
  | cons c t ih =>
    rw [List.nodup_cons] at hnd
    rw [bindAll_cons]
    cases j with
    | zero =>
      simp only [List.getElem_cons_zero]
      rw [bindAll_entry_of_not_mem t n v _ hnd.1]
      simp [bindVoice_entry]
    | succ j =>
      simp only [List.getElem_cons_succ]
      rw [ih _ hnd.2]
      have hne : t[j]'(by simpa using hj) ≠ c := fun he => hnd.1 (he ▸ List.getElem_mem _)
      simp [bindVoice_entry, hne]
      omega

/-- The writes of several distinct channels' binds follow one another, channel by channel (R210). -/
theorem bindAll_writes (t : List Chan) (n : Note) (v : Velocity) (s : State) (hnd : t.Nodup) :
    WritesExactly (t.flatMap fun c => evictBytes s c ++ onBytes s n v c) [] s (bindAll defaultConfig t n v s) := by
  induction t generalizing s with
  | nil => exact ⟨by simp [writeEvents, bindAll], fun r => rfl⟩
  | cons c t ih =>
    rw [List.nodup_cons] at hnd
    obtain ⟨ht, hi⟩ := ih (bindVoice defaultConfig c n v s) hnd.2
    have hk := (keepsSettings_bindVoice c n v s).fields
    have hsame : (t.flatMap fun d => evictBytes (bindVoice defaultConfig c n v s) d ++
        onBytes (bindVoice defaultConfig c n v s) n v d) = t.flatMap fun d => evictBytes s d ++ onBytes s n v d := by
      apply List.flatMap_congr
      intro d hd
      have hne : d ≠ c := fun he => hnd.1 (he ▸ hd)
      rw [evictBytes_congr d hk.2.2.2.1 hk.2.2.2.2.1 (by simp [bindVoice_entry, hne]),
        onBytes_congr n v d hk.2.2.2.1 hk.2.2.2.2.1 hk.2.2.2.2.2.1 (by simp [bindVoice_entry, hne])]
    rw [hsame] at ht hi
    refine ⟨?_, fun r => ?_⟩
    · rw [bindAll_cons, ht, bindVoice_trace, List.flatMap_cons]; simp [writeEvents_append]
    · rw [bindAll_cons, hi, bindVoice_image, List.flatMap_cons]; simp [imageAfter_append]

/-! ### Release and the scans -/

theorem releaseVoice_eq (c : Chan) (s : State) :
    releaseVoice defaultConfig c s =
      (busWrites defaultConfig (asBytes (offBytes s c)) s).setEntry c (releasedEntry (s.entry c)) := by
  unfold releaseVoice noteOffRecipe
  rw [noteOffWrites_eq]
  simp [releasedEntry]

theorem releaseVoice_entry (c d : Chan) (s : State) :
    (releaseVoice defaultConfig c s).entry d = if d = c then releasedEntry (s.entry c) else s.entry d := by
  rw [releaseVoice_eq]; simp

theorem keepsSettings_releaseVoice (c : Chan) (s : State) : KeepsSettings s (releaseVoice defaultConfig c s) := by
  rw [releaseVoice_eq]
  exact (keepsSettings_busWrites _ _ _).trans (keepsSettings_setEntry _ _ _)

/-- A scan that releases each channel whose entry satisfies a test leaves exactly those released (R213, R214). -/
theorem scan_release (p : Entry → Bool) (l : List Chan) (s : State) (hnd : l.Nodup) :
    let t := l.foldl (fun s c => if p (s.entry c) then releaseVoice defaultConfig c s else s) s
    (∀ d : Chan, t.entry d = if d ∈ l ∧ p (s.entry d) then releasedEntry (s.entry d) else s.entry d) ∧
    t.stampCounter = s.stampCounter ∧
    WritesExactly ((l.filter fun c => p (s.entry c)).flatMap (offBytes s)) [] s t ∧
    KeepsSettings s t := by
  induction l generalizing s with
  | nil => exact ⟨by simp, rfl, ⟨by simp [writeEvents], fun r => rfl⟩, KeepsSettings.refl s⟩
  | cons c l ih =>
    rw [List.nodup_cons] at hnd
    intro t
    by_cases hp : p (s.entry c)
    · have hstep : t = l.foldl (fun s c => if p (s.entry c) then releaseVoice defaultConfig c s else s)
          (releaseVoice defaultConfig c s) := by simp [t, hp]
      obtain ⟨he, hc, ⟨ht, hi⟩, hk⟩ := ih (releaseVoice defaultConfig c s) hnd.2
      rw [← hstep] at he hc ht hi hk
      have hk0 := keepsSettings_releaseVoice c s
      have hkf := hk0.fields
      have hsame : ((l.filter fun d => p ((releaseVoice defaultConfig c s).entry d)).flatMap
          (offBytes (releaseVoice defaultConfig c s))) = (l.filter fun d => p (s.entry d)).flatMap (offBytes s) := by
        have h1 : (l.filter fun d => p ((releaseVoice defaultConfig c s).entry d)) = l.filter fun d => p (s.entry d) := by
          apply List.filter_congr
          intro d hd
          have hne : d ≠ c := fun heq => hnd.1 (heq ▸ hd)
          simp [releaseVoice_entry, hne]
        rw [h1]
        exact List.flatMap_congr fun d _ => offBytes_congr d hkf.2.2.2.1 hkf.2.2.2.2.1
      rw [hsame] at ht hi
      refine ⟨fun d => ?_, ?_, ⟨?_, fun r => ?_⟩, hk0.trans hk⟩
      · rw [he d, releaseVoice_entry]
        by_cases hd : d = c
        · subst hd; simp [hnd.1, hp]
        · simp [hd]
      · rw [hc, releaseVoice_eq]; simp
      · rw [ht, releaseVoice_eq]
        simp only [State.setEntry_trace, busWrites_asBytes_trace]
        simp [hp, writeEvents_append]
      · rw [hi, releaseVoice_eq]
        simp only [State.image_setEntry, busWrites_asBytes_image]
        simp [hp, imageAfter_append]
    · have hstep : t = l.foldl (fun s c => if p (s.entry c) then releaseVoice defaultConfig c s else s) s := by
        simp [t, hp]
      obtain ⟨he, hc, hw, hk⟩ := ih s hnd.2
      rw [← hstep] at he hc hw hk
      refine ⟨fun d => ?_, hc, by simpa [hp] using hw, hk⟩
      rw [he d]
      by_cases hd : d = c
      · subst hd; simp [hp]
      · simp [hd]

/-- NOTE_OFF's scan (R213). -/
theorem stopNote_released (note : BitVec 8) (s : State) :
    ReleasedExactly (fun c => (s.entry c).note = some (noteOperand note)) s (stopNote defaultConfig note s) := by
  have hfun : stopNote defaultConfig note s = Chan.all.foldl
      (fun s c => if decide ((s.entry c).note = some (noteOperand note)) then releaseVoice defaultConfig c s else s) s := by
    unfold stopNote releaseIfHolding; simp
  have h := scan_release (fun e => decide (e.note = some (noteOperand note))) Chan.all s Chan.all_nodup
  rw [← hfun] at h
  obtain ⟨he, hc, hw, hk⟩ := h
  exact ⟨fun c => by rw [he c]; simp [Chan.mem_all], hc, hw, hk⟩

/-- ALL_NOTES_OFF's scan (R214). -/
theorem stopAllNotes_released (s : State) : ReleasedExactly s.sounding s (stopAllNotes defaultConfig s) := by
  have hfun : stopAllNotes defaultConfig s = Chan.all.foldl
      (fun s c => if (s.entry c).note.isSome then releaseVoice defaultConfig c s else s) s := rfl
  have h := scan_release (fun e => e.note.isSome) Chan.all s Chan.all_nodup
  rw [← hfun] at h
  obtain ⟨he, hc, hw, hk⟩ := h
  exact ⟨fun c => by rw [he c]; simp only [Chan.mem_all, true_and]; rfl, hc, hw, hk⟩

/-! ### Selections -/

theorem find?_firstWith {p : Chan → Bool} {l : List Chan} {c : Chan} (h : l.find? p = some c) :
    FirstWith (fun d => p d = true) l c := by
  rw [List.find?_eq_some_iff_append] at h
  obtain ⟨hp, before, after, hl, hb⟩ := h
  exact ⟨before, after, hl, hp, fun d hd => by simpa using hb d hd⟩

theorem FirstWith.mem {p : Chan → Prop} {l : List Chan} {c : Chan} (h : FirstWith p l c) : c ∈ l := by
  obtain ⟨b, a, rfl, -, -⟩ := h; simp

theorem FirstWith.congr {p q : Chan → Prop} {l : List Chan} {c : Chan} (h : FirstWith p l c)
    (hpq : ∀ d, p d ↔ q d) : FirstWith q l c := by
  obtain ⟨b, a, hl, hp, hb⟩ := h
  exact ⟨b, a, hl, (hpq c).1 hp, fun d hd hq => hb d hd ((hpq d).2 hq)⟩

/-- A non-empty list has a member with the smallest stamp. -/
theorem exists_oldest (s : State) (l : List Chan) (h : l ≠ []) : ∃ c ∈ l, OldestIn s l c := by
  induction l with
  | nil => exact absurd rfl h
  | cons a l ih =>
    by_cases hl : l = []
    · subst hl; exact ⟨a, by simp, by simp [OldestIn]⟩
    · obtain ⟨c, hc, ho⟩ := ih hl
      rcases Nat.le_total (s.entry a).stamp (s.entry c).stamp with hle | hle
      · refine ⟨a, by simp, fun d hd => ?_⟩
        rcases List.mem_cons.1 hd with rfl | hd
        · exact le_refl _
        · exact le_trans hle (ho d hd)
      · refine ⟨c, by simp [hc], fun d hd => ?_⟩
        rcases List.mem_cons.1 hd with rfl | hd
        · exact hle
        · exact ho d hd

/-- Steal picks the first of the oldest (R204); it fails only on an empty group. -/
theorem stealFrom_spec (s : State) (g : List Chan) (h : g ≠ []) :
    ∃ c, stealFrom s g = some c ∧ FirstWith (OldestIn s g) g c := by
  obtain ⟨c, hc, ho⟩ := exists_oldest s g h
  have hsome : (stealFrom s g).isSome := by
    unfold stealFrom
    rw [List.find?_isSome]
    exact ⟨c, hc, by simpa [OldestIn] using ho⟩
  obtain ⟨e, he⟩ := Option.isSome_iff_exists.1 hsome
  refine ⟨e, he, (find?_firstWith he).congr fun d => by simp [OldestIn]⟩

/-- First free, else stolen (R207, R208); it fails only on an empty group. -/
theorem freeOrStolen_spec (s : State) (g : List Chan) (h : g ≠ []) :
    ∃ c, freeOrStolen s g = some c ∧ c ∈ g ∧ FreeOrOldest s g c := by
  unfold freeOrStolen
  cases hf : firstHolding s g none with
  | some c =>
    have hfw : FirstWith (fun d => (s.entry d).note = none) g c :=
      (find?_firstWith hf).congr fun d => by simp
    refine ⟨c, rfl, hfw.mem, fun _ => hfw, fun hno => ?_⟩
    obtain ⟨_, _, _, hp, _⟩ := hfw
    exact absurd hp (hno c (FirstWith.mem (find?_firstWith hf)))
  | none =>
    obtain ⟨c, hc, hfw⟩ := stealFrom_spec s g h
    refine ⟨c, by simpa using hc, hfw.mem, fun ⟨d, hd, hfree⟩ => ?_, fun _ => hfw⟩
    unfold firstHolding at hf
    rw [List.find?_eq_none] at hf
    exact absurd hfree (by simpa using hf d hd)

end Sys2Proof.Machine
end

