-- ==== Sys2Proof/Laws/Decode.lean ====
section
/-! SUPPORT. The fields of a command word as numbers, and the bits of an assembled word (30_encoding.md R90 to R95). -/

namespace Sys2Proof

/-! ### Fields as numbers -/

theorem opField_toNat (w : Word) : (opField w).toNat = w.toNat / 2 ^ 24 := by
  unfold opField; rw [BitVec.extractLsb'_toNat, Nat.shiftRight_eq_div_pow]; omega

theorem immField_toNat (w : Word) : (immField w).toNat = w.toNat % 2 ^ 24 := by
  unfold immField; rw [BitVec.extractLsb'_toNat, Nat.shiftRight_eq_div_pow]; omega

theorem hintField_toNat (w : Word) : (hintField w).toNat = w.toNat / 2 ^ 20 % 16 := by
  unfold hintField; rw [BitVec.extractLsb'_toNat, Nat.shiftRight_eq_div_pow]

theorem highByteField_toNat (w : Word) : (highByteField w).toNat = w.toNat / 2 ^ 8 % 256 := by
  unfold highByteField; rw [BitVec.extractLsb'_toNat, Nat.shiftRight_eq_div_pow]

theorem lowByteField_toNat (w : Word) : (lowByteField w).toNat = w.toNat % 256 := by
  unfold lowByteField; rw [BitVec.extractLsb'_toNat, Nat.shiftRight_eq_div_pow]; omega

/-- An operation code in front of a payload, as a number. -/
theorem opPayload_toNat (op : BitVec 8) (p : BitVec 24) : (op ++ p).toNat = op.toNat * 2 ^ 24 + p.toNat := by
  rw [BitVec.toNat_append, Nat.shiftLeft_eq, Nat.mul_comm, ← Nat.two_pow_add_eq_or_of_lt p.isLt, Nat.mul_comm]

/-- The assembled word as a number. -/
theorem encode_toNat (i : Instr) : (encode i).toNat = (opcode i).toNat * 2 ^ 24 + (payload i).toNat :=
  opPayload_toNat (opcode i) (payload i)

/-! ### Bits -/

/-- A bit of an operation code in front of a payload. -/
theorem opPayload_bit (op : BitVec 8) (p : BitVec 24) (k : Nat) (hk : k < 32) :
    @GetElem.getElem (BitVec 32) Nat Bool (fun _ j => j < 32) _ (op ++ p) k hk =
      if h : k < 24 then p[k] else op[k - 24] :=
  BitVec.getElem_append (x := op) (y := p) hk

/-- The operation code of an operation code in front of a payload. -/
theorem opField_append (op : BitVec 8) (p : BitVec 24) : opField (op ++ p) = op := by
  apply BitVec.eq_of_toNat_eq
  rw [opField_toNat]
  have h := opPayload_toNat op p
  have hp := p.isLt
  rw [h]
  omega

/-- The immediate of an operation code in front of a payload. -/
theorem immField_append (op : BitVec 8) (p : BitVec 24) : immField (op ++ p) = p := by
  apply BitVec.eq_of_toNat_eq
  rw [immField_toNat]
  have h := opPayload_toNat op p
  have hp := p.isLt
  rw [h]
  omega

end Sys2Proof
end

