-- ==== Sys2Proof/Laws/Operands.lean ====
section
/-! SUPPORT. What the operand decoders answer, in the terms of 30_encoding.md R96 to R98. -/

namespace Sys2Proof.Machine

theorem byte_forall {p : BitVec 8 → Prop} (h : ∀ i : Fin 256, p (BitVec.ofFin i)) (b : BitVec 8) : p b := h b.toFin

/-- The note clamp of R96. -/
theorem noteOperand_eq : ∀ f : BitVec 8, noteOperand f = clampedNote f :=
  byte_forall (by decide +kernel)

/-- The velocity clamp of R97. -/
theorem velocityOperand_eq : ∀ f : BitVec 8, velocityOperand f = clampedVelocity f :=
  byte_forall (by decide +kernel)

theorem dutyOperand_toNat (f : BitVec 8) : (dutyOperand f).toNat = min f.toNat 3 := by
  unfold dutyOperand; rw [BitVec.toNat_ofNat]; omega

theorem expDutyOperand_toNat (f : BitVec 8) : (expDutyOperand f).toNat = min f.toNat 7 := by
  unfold expDutyOperand; rw [BitVec.toNat_ofNat]; omega

theorem boolOperand_iff (f : BitVec 8) : boolOperand f = true ↔ f.toNat ≠ 0 := by
  simp [boolOperand, ← BitVec.toNat_inj]

theorem boolOperand_eq {f : BitVec 8} {e : Bool} (h : e = true ↔ f.toNat ≠ 0) : boolOperand f = e := by
  rw [Bool.eq_iff_iff, boolOperand_iff, h]

theorem ofIndex_index (c : Chan) : Chan.ofIndex c.index.val = some c := by cases c <;> rfl

theorem ofIndex_none {k : Nat} (h : 7 < k) : Chan.ofIndex k = none := by
  match k, h with
  | k + 8, _ => rfl

theorem ofNumber_number (m : Mode) : Mode.ofNumber m.number = some m := by cases m <;> rfl

theorem ofNumber_none {k : Nat} (h : 4 < k) : Mode.ofNumber k = none := by
  match k, h with
  | k + 5, _ => rfl

theorem pulseIndexOperand_none {f : BitVec 8} (h : 1 < f.toNat) : pulseIndexOperand f = none := by
  unfold pulseIndexOperand; split <;> simp_all

theorem pulseIndexOperand_some {f : BitVec 8} {k : Fin 2} (h : f.toNat = k.val) : pulseIndexOperand f = some k := by
  unfold pulseIndexOperand; rw [h]; fin_cases k <;> rfl

theorem index_ofIndex {k : Nat} {c : Chan} (h : Chan.ofIndex k = some c) : c.index.val = k := by
  unfold Chan.ofIndex at h
  split at h <;> simp at h <;> subst h <;> rfl

/-- A melodic entry of SET_CHANNEL_ORDER names the channel with its index (R98). -/
theorem melodicEntry_eq_some (f : BitVec 4) (c : Chan) :
    melodicEntry f = some c ↔ c.index.val = f.toNat ∧ c.isMelodic = true := by
  unfold melodicEntry
  rw [Option.filter_eq_some_iff]
  constructor
  · rintro ⟨h, hm⟩; exact ⟨index_ofIndex h, hm⟩
  · rintro ⟨h, hm⟩; exact ⟨h ▸ ofIndex_index c, hm⟩

/-- The Channel Order an immediate names: entry by entry, with no channel twice (R98). -/
theorem orderOperand_eq_some (imm : BitVec 24) (order : Vector Chan 6) :
    orderOperand imm = some order ↔
      (∀ (j : Nat) (hj : j < 6), melodicEntry (orderEntry imm j) = some order[j]) ∧ order.toList.Nodup := by
  have hsplit : (∀ (j : Nat) (hj : j < 6), melodicEntry (orderEntry imm j) = some order[j]) ↔
      melodicEntry (orderEntry imm 0) = some order[0] ∧ melodicEntry (orderEntry imm 1) = some order[1] ∧
      melodicEntry (orderEntry imm 2) = some order[2] ∧ melodicEntry (orderEntry imm 3) = some order[3] ∧
      melodicEntry (orderEntry imm 4) = some order[4] ∧ melodicEntry (orderEntry imm 5) = some order[5] := by
    constructor
    · intro h
      exact ⟨h 0 (by omega), h 1 (by omega), h 2 (by omega), h 3 (by omega), h 4 (by omega), h 5 (by omega)⟩
    · rintro ⟨h0, h1, h2, h3, h4, h5⟩ j hj
      interval_cases j <;> assumption
  have hlist : order.toList = [order[0], order[1], order[2], order[3], order[4], order[5]] := by
    apply List.ext_getElem
    · simp
    · intro k hk hk'
      have hk6 : k < 6 := by simpa using hk
      interval_cases k <;> simp
  have hvec : ∀ v : Vector Chan 6, v = #v[v[0], v[1], v[2], v[3], v[4], v[5]] := fun v => by
    apply Vector.ext
    intro k hk
    interval_cases k <;> rfl
  rw [hsplit, hlist]
  unfold orderOperand
  simp only [Option.bind_eq_bind, Option.bind_eq_some_iff]
  constructor
  · rintro ⟨c0, h0, c1, h1, c2, h2, c3, h3, c4, h4, c5, h5, h⟩
    split at h
    · next hnd =>
      have he : #v[c0, c1, c2, c3, c4, c5] = order := by simpa using h
      subst he
      exact ⟨⟨h0, h1, h2, h3, h4, h5⟩, hnd⟩
    · simp at h
  · rintro ⟨⟨h0, h1, h2, h3, h4, h5⟩, hnd⟩
    refine ⟨_, h0, _, h1, _, h2, _, h3, _, h4, _, h5, ?_⟩
    rw [if_pos hnd, ← hvec]

end Sys2Proof.Machine
end

