-- ==== Sys2Proof/Laws/PerInstr.lean ====
section
/-! SUPPORT. The per-instruction family `EncodeOpcode`: the word assembled for a command carries that command's operation
code in bits 31:24 (30_encoding.md R90, R100), one lemma per command. -/

namespace Sys2Proof.Laws.EncodeOpcode

/-- The top byte of a command's word is its operation code, and that code is not reserved. -/
def Statement (i : Instr) : Prop :=
  opField (encode i) = opcode i ∧ ∀ op, decode (encode i) ≠ .reserved op

theorem decode_ne_reserved {w : Word} {i : Instr} (h : opField w = opcode i) (op : BitVec 8) :
    decode w ≠ .reserved op := by
  unfold decode
  rw [h]
  cases i <;> intro hd <;> simp [opcode] at hd

theorem of_opcode (i : Instr) : Statement i :=
  have h : opField (encode i) = opcode i := opField_append (opcode i) (payload i)
  ⟨h, decode_ne_reserved h⟩

theorem init (sr : BitVec 24) : Statement (.init sr) := of_opcode _

theorem tick (n : BitVec 24) : Statement (.tick n) := of_opcode _

theorem noteOn (hint : BitVec 4) (note vel : BitVec 8) : Statement (.noteOn hint note vel) := of_opcode _

theorem noteOff (hint : BitVec 4) (note : BitVec 8) : Statement (.noteOff hint note) := of_opcode _

theorem allNotesOff : Statement .allNotesOff := of_opcode _

theorem getChannel (note : BitVec 8) : Statement (.getChannel note) := of_opcode _

theorem setChannelEnabled (chn b : BitVec 8) : Statement (.setChannelEnabled chn b) := of_opcode _

theorem setPulseDuty (idx level : BitVec 8) : Statement (.setPulseDuty idx level) := of_opcode _

theorem setNoiseMode (b : BitVec 8) : Statement (.setNoiseMode b) := of_opcode _

theorem setExpansionEnabled (b : BitVec 8) : Statement (.setExpansionEnabled b) := of_opcode _

theorem setExpPulseDuty (idx level : BitVec 8) : Statement (.setExpPulseDuty idx level) := of_opcode _

theorem setAllocMode (m : BitVec 8) : Statement (.setAllocMode m) := of_opcode _

theorem setSplitPoint (note : BitVec 8) : Statement (.setSplitPoint note) := of_opcode _

theorem setChannelOrder (imm : BitVec 24) : Statement (.setChannelOrder imm) := of_opcode _

end Sys2Proof.Laws.EncodeOpcode
end

