-- ==== Sys2Proof/Laws/Scheduler.lean ====
section
/-! SUPPORT. The Clock Scheduler: what INIT's table clearing and the sample steps do, said once. -/

namespace Sys2Proof.Machine

theorem setEntries_entry (f : Entry → Entry) (l : List Chan) (s : State) (hnd : l.Nodup) (d : Chan) :
    (l.foldl (fun s c => s.setEntry c (f (s.entry c))) s).entry d = if d ∈ l then f (s.entry d) else s.entry d := by
  induction l generalizing s with
  | nil => simp
  | cons c l ih =>
    rw [List.nodup_cons] at hnd
    rw [List.foldl_cons, ih _ hnd.2, State.entry_setEntry]
    by_cases hd : d = c
    · subst hd; simp [hnd.1]
    · simp [hd]

theorem setEntries_frame (f : Entry → Entry) (l : List Chan) (s : State) :
    l.foldl (fun s c => s.setEntry c (f (s.entry c))) s =
      { s with ch := (l.foldl (fun s c => s.setEntry c (f (s.entry c))) s).ch } := by
  induction l generalizing s with
  | nil => rfl
  | cons c l ih => rw [List.foldl_cons, ih]; rfl

/-- INIT silences every entry and zeroes its velocity and stamp; `enabled` is kept (R122). -/
theorem clearVoices_entry (s : State) (d : Chan) :
    (clearVoices s).entry d = { enabled := (s.entry d).enabled, note := none, vel := 0, stamp := 0 } := by
  have h := setEntries_entry (fun e => { e with note := none, vel := 0, stamp := 0 }) Chan.all s Chan.all_nodup d
  simpa [clearVoices, Chan.mem_all] using h

theorem clearVoices_frame (s : State) : clearVoices s = { s with ch := (clearVoices s).ch } :=
  setEntries_frame (fun e => { e with note := none, vel := 0, stamp := 0 }) Chan.all s

theorem statusMask_congr {s t : State} (h : ∀ c : Chan, (t.entry c).enabled = (s.entry c).enabled) :
    t.statusMask = s.statusMask := by
  simp [State.statusMask, State.isEnabled, h]

/-- The status mask as the sum of its bits (R36). -/
theorem statusMask_eq (s : State) : s.statusMask = BitVec.ofNat 8 (statusNumber s) := by
  unfold State.statusMask statusNumber State.isEnabled
  generalize (s.entry .pulse1).enabled = a
  generalize (s.entry .pulse2).enabled = b
  generalize (s.entry .triangle).enabled = c
  generalize (s.entry .noise).enabled = d
  generalize (s.entry .sample).enabled = e
  cases a <;> cases b <;> cases c <;> cases d <;> cases e <;> decide

/-- INIT with a zero rate (R122). -/
theorem initialiseCore_zero (cfg : Config) (s : State) :
    initialiseCore cfg 0 s = { s with sr := 0, acc := 0, init := false } := rfl

/-- The table part of a non-zero INIT, as one record. -/
theorem initialiseCore_frame (cfg : Config) (sr : BitVec 24) (s : State) (h : sr ≠ 0) :
    ∃ (table : Vector Entry 8) (image : Vector Byte 22),
      initialiseCore cfg sr s =
        { s with
          ch := table
          sr := sr
          acc := 0
          img := image
          stampCounter := 0
          init := true
          trace := s.trace ++ [.configureClock cfg.mclkNum cfg.mclkDen sr, .resetState,
            .memWrite (cfg.addr .status) s.statusMask] } ∧
      (∀ c : Chan, table.get c.index = { enabled := (s.entry c).enabled, note := none, vel := 0, stamp := 0 }) ∧
      (∀ r : Reg, image.get r.index = if r = .status then s.statusMask else 0) := by
  have hm : ∀ u : State, (∀ c : Chan, (u.entry c).enabled = (s.entry c).enabled) →
      u.statusMask = s.statusMask := fun u hu => statusMask_congr hu
  set u : State := emit .resetState (emit (.configureClock cfg.mclkNum cfg.mclkDen sr)
    { s with sr := sr, acc := 0, init := true }) with hu
  have hv : ∀ c : Chan, (clearVoices u).entry c =
      { enabled := (s.entry c).enabled, note := none, vel := 0, stamp := 0 } := fun c => by
    rw [clearVoices_entry]; simp [hu]
  have hw : initialiseCore cfg sr s = writeStatus cfg ({ clearVoices u with stampCounter := 0 } : State).clearImage := by
    unfold initialiseCore; rw [if_neg h]
  rw [clearVoices_frame] at hw
  have hmask := hm ({ { u with ch := (clearVoices u).ch } with stampCounter := 0 } : State).clearImage
    (fun c => by simp [hv])
  rw [hw]
  unfold writeStatus busWrite
  rw [hmask]
  refine ⟨(clearVoices u).ch, ((({ { u with ch := (clearVoices u).ch } with stampCounter := 0 } :
    State).clearImage).setImage .status s.statusMask).img, ?_, fun c => hv c, fun r => ?_⟩
  · simp [hu, emit, State.setImage, State.clearImage]
  · rw [State.img_get]; simp

/-- One sample step touches `acc` and the trace only (R123). -/
theorem sampleStep_eq (cfg : Config) (s : State) :
    sampleStep cfg s =
      { s with
        acc := (s.acc + cfg.mclkNum) % s.accDen cfg
        trace := s.trace ++ ((if (s.acc + cfg.mclkNum) / s.accDen cfg = 0 then []
          else [.advance ((s.acc + cfg.mclkNum) / s.accDen cfg)]) ++ [.renderFrame]) } := by
  unfold sampleStep
  by_cases h : (s.acc + cfg.mclkNum) / s.accDen cfg = 0
  · simp [h, emit]
  · simp [h, emit, Nat.pos_of_ne_zero h]

/-- The shape of one sample step, with its two numbers left as variables: a proof that needs no more than the shape takes
this one, so that no elaboration has to evaluate the division. -/
theorem sampleStep_shape (cfg : Config) (s : State) :
    ∃ rest pulses : Nat, sampleStep cfg s =
      { s with
        acc := rest
        trace := s.trace ++ ((if pulses = 0 then [] else [.advance pulses]) ++ [.renderFrame]) } :=
  ⟨_, _, sampleStep_eq cfg s⟩

theorem sampleSteps_succ (cfg : Config) (n : Nat) (s : State) :
    sampleSteps cfg (n + 1) s = sampleSteps cfg n (sampleStep cfg s) := rfl

theorem sampleSteps_add (cfg : Config) (m n : Nat) (s : State) :
    sampleSteps cfg (m + n) s = sampleSteps cfg n (sampleSteps cfg m s) := by
  induction m generalizing s with
  | zero => simp [sampleSteps]
  | succ m ih => rw [Nat.succ_add, sampleSteps_succ, sampleSteps_succ, ih]

/-- Sample steps touch `acc` and the trace only. -/
theorem sampleSteps_frame (cfg : Config) (n : Nat) (s : State) :
    sampleSteps cfg n s = { s with acc := (sampleSteps cfg n s).acc, trace := (sampleSteps cfg n s).trace } := by
  induction n generalizing s with
  | zero => rfl
  | succ n ih => rw [sampleSteps_succ, ih, sampleStep_eq]

/-- The remainder after `n` sample steps: `n · MCLK_NUM` added, modulo `DEN` (R125). -/
theorem sampleSteps_acc (cfg : Config) (n : Nat) (s : State) (hn : s.acc < s.accDen cfg) :
    (sampleSteps cfg n s).acc = (s.acc + n * cfg.mclkNum) % s.accDen cfg := by
  induction n generalizing s with
  | zero => simp [sampleSteps, Nat.mod_eq_of_lt hn]
  | succ n ih =>
    have hpos : 0 < s.accDen cfg := by omega
    have hden : (sampleStep cfg s).accDen cfg = s.accDen cfg := by rw [sampleStep_eq]; rfl
    have hacc : (sampleStep cfg s).acc = (s.acc + cfg.mclkNum) % s.accDen cfg := by rw [sampleStep_eq]
    rw [sampleSteps_succ, ih _ (by rw [hden, hacc]; exact Nat.mod_lt _ hpos), hden, hacc, Nat.mod_add_mod]
    congr 1
    ring

/-- The trace of `n` sample steps: the events of each step number in turn. -/
theorem sampleSteps_trace (cfg : Config) (n : Nat) (s : State) (hn : s.acc < s.accDen cfg) :
    (sampleSteps cfg n s).trace =
      s.trace ++ (List.range n).flatMap (sampleEvents cfg.mclkNum (s.accDen cfg) s.acc) := by
  induction n with
  | zero => simp [sampleSteps]
  | succ n ih =>
    have hpos : 0 < s.accDen cfg := by omega
    have hden : (sampleSteps cfg n s).accDen cfg = s.accDen cfg := by rw [sampleSteps_frame]; rfl
    have hlast : sampleSteps cfg (n + 1) s = sampleStep cfg (sampleSteps cfg n s) := by
      rw [sampleSteps_add]; rfl
    have hcount : ((sampleSteps cfg n s).acc + cfg.mclkNum) / s.accDen cfg =
        (s.acc + (n + 1) * cfg.mclkNum) / s.accDen cfg - (s.acc + n * cfg.mclkNum) / s.accDen cfg := by
      rw [sampleSteps_acc cfg n s hn]
      generalize s.accDen cfg = den at hpos
      have hsplit : s.acc + (n + 1) * cfg.mclkNum =
          ((s.acc + n * cfg.mclkNum) % den + cfg.mclkNum) + den * ((s.acc + n * cfg.mclkNum) / den) := by
        have := Nat.mod_add_div (s.acc + n * cfg.mclkNum) den
        rw [Nat.succ_mul]; omega
      rw [hsplit, Nat.add_mul_div_left _ _ hpos, Nat.add_sub_cancel]
    rw [hlast, sampleStep_eq, hden, hcount, ih, List.range_succ, List.flatMap_append]
    simp [sampleEvents]

end Sys2Proof.Machine
end

