-- ==== Sys2Proof/Laws/Setters.lean ====
section
/-! SUPPORT. What the setters of the encoder and of the channel enables do, said once each: the fields they may change and
the writes they may send. A proof about frames, counts or traces cites these instead of unfolding the setters. -/

namespace Sys2Proof.Machine

/-- The byte of R181: the low seven bits kept, bit 7 the flag. -/
theorem withEnableBit_eq (old : Byte) (e : Bool) :
    withEnableBit old e = BitVec.ofNat 8 (old.toNat % 128 + 128 * e.toNat) := by
  revert old
  cases e
  · exact byte_forall (by decide +kernel)
  · exact byte_forall (by decide +kernel)

/-- SET_PULSE_DUTY changes `duty` and writes at most one register, never STATUS (R154). -/
theorem pulseDutyChange_shape (cfg : Config) (idx level : BitVec 8) (s : State) :
    ∃ (duty : Vector (BitVec 2) 2) (ws : List (Reg × Byte)),
      pulseDutyChange cfg idx level s = busWrites cfg ws { s with duty := duty } ∧
      ws.length ≤ 1 ∧ ∀ w ∈ ws, w.1 ≠ .status := by
  unfold pulseDutyChange
  split
  · exact ⟨s.duty, [], rfl, by simp, by simp⟩
  · rename_i k _
    dsimp only
    split
    · refine ⟨_, [_], busWrite_eq_busWrites _ _ _ _, by simp, ?_⟩
      fin_cases k <;> simp [basePulseCtl]
    · exact ⟨_, [], rfl, by simp, by simp⟩

/-- SET_EXP_PULSE_DUTY changes `xduty` and writes at most one register, never STATUS (R155). -/
theorem expPulseDutyChange_shape (cfg : Config) (idx level : BitVec 8) (s : State) :
    ∃ (xduty : Vector (BitVec 3) 2) (ws : List (Reg × Byte)),
      expPulseDutyChange cfg idx level s = busWrites cfg ws { s with xduty := xduty } ∧
      ws.length ≤ 1 ∧ ∀ w ∈ ws, w.1 ≠ .status := by
  unfold expPulseDutyChange
  split
  · exact ⟨s.xduty, [], rfl, by simp, by simp⟩
  · rename_i k _
    dsimp only
    split
    · refine ⟨_, [_], busWrite_eq_busWrites _ _ _ _, by simp, ?_⟩
      fin_cases k <;> simp [expPulseCtl]
    · exact ⟨_, [], rfl, by simp, by simp⟩

/-- SET_NOISE_MODE changes `noiseMode` and writes at most one register, never STATUS (R156). -/
theorem noiseModeChange_shape (cfg : Config) (b : BitVec 8) (s : State) :
    ∃ ws : List (Reg × Byte),
      noiseModeChange cfg b s = busWrites cfg ws { s with noiseMode := boolOperand b } ∧
      ws.length ≤ 1 ∧ ∀ w ∈ ws, w.1 ≠ .status := by
  unfold noiseModeChange
  dsimp only
  split
  · exact ⟨[], rfl, by simp, by simp⟩
  · exact ⟨[_], busWrite_eq_busWrites _ _ _ _, by simp, by simp⟩

/-- SET_CHANNEL_ENABLED changes enable flags of the table only and writes at most one register (R181). -/
theorem channelEnableChange_shape (cfg : Config) (chn b : BitVec 8) (s : State) :
    ∃ (table : Vector Entry 8) (ws : List (Reg × Byte)),
      channelEnableChange cfg chn b s = busWrites cfg ws { s with ch := table } ∧ ws.length ≤ 1 ∧
      ∀ c : Chan, ∃ e : Bool, table.get c.index =
        { enabled := e, note := (s.entry c).note, vel := (s.entry c).vel, stamp := (s.entry c).stamp } := by
  have hsame : ∀ c : Chan, ∃ e : Bool, s.ch.get c.index =
      { enabled := e, note := (s.entry c).note, vel := (s.entry c).vel, stamp := (s.entry c).stamp } :=
    fun c => ⟨(s.entry c).enabled, rfl⟩
  unfold channelEnableChange
  dsimp only
  split
  · exact ⟨s.ch, [], rfl, by simp, hsame⟩
  · rename_i c _
    split
    · exact ⟨s.ch, [], rfl, by simp, hsame⟩
    · have htable : ∀ d : Chan, ∃ e : Bool, (s.setEnabled c (boolOperand b)).ch.get d.index =
          { enabled := e, note := (s.entry d).note, vel := (s.entry d).vel, stamp := (s.entry d).stamp } := by
        intro d
        rw [State.ch_get, State.setEnabled, State.entry_setEntry]
        split
        · next h => subst h; exact ⟨_, rfl⟩
        · exact ⟨_, rfl⟩
      unfold writeEnable
      split
      · exact ⟨_, [_], busWrite_eq_busWrites _ _ _ _, by simp, htable⟩
      · split
        · split
          · exact ⟨_, [_], busWrite_eq_busWrites _ _ _ _, by simp, htable⟩
          · exact ⟨_, [], rfl, by simp, htable⟩
        · exact ⟨_, [], rfl, by simp, htable⟩

/-- SET_EXPANSION_ENABLED sets `expEn`, may silence entries of the table, and writes at most three registers, never STATUS
(R182). -/
theorem expansionChange_shape (cfg : Config) (b : BitVec 8) (s : State) :
    ∃ (table : Vector Entry 8) (ws : List (Reg × Byte)),
      expansionChange cfg b s = { busWrites cfg ws s with ch := table, expEn := boolOperand b } ∧
      ws.length ≤ 3 ∧ (∀ w ∈ ws, w.1 ≠ .status) ∧
      ∀ c : Chan, table.get c.index = s.entry c ∨
        table.get c.index = { s.entry c with note := none } := by
  unfold expansionChange
  dsimp only
  split
  · next h => exact ⟨s.ch, [], by rw [h]; rfl, by simp, by simp, fun c => .inl rfl⟩
  · next h =>
    split
    · next ht => exact ⟨s.ch, [], by rw [ht]; rfl, by simp, by simp, fun c => .inl rfl⟩
    · next ht =>
      have hf : boolOperand b = false := by simpa using ht
      set v := busWrites cfg [(.x1Phi, cfg.expOff), (.x2Phi, cfg.expOff), (.sawPhi, cfg.expOff)] s with hv
      have hoff : expansionOff cfg s =
          { v with
            ch := (silence .expSawtooth (silence .expPulse2 (silence .expPulse1 v))).ch
            expEn := false } := rfl
      refine ⟨_, [(.x1Phi, cfg.expOff), (.x2Phi, cfg.expOff), (.sawPhi, cfg.expOff)], by rw [hf]; exact hoff, by simp,
        by simp, fun c => ?_⟩
      rw [State.ch_get]
      cases c <;> simp [silence, hv]

end Sys2Proof.Machine
end

