-- ==== Sys2Proof/Tests/Slice0.lean ====
section
/-! SUPPORT. The model's own tests: one ill-formed parameter set per check, decodings of words written out from the spec's
encodings, one step or two per command with results taken from the spec's vectors (95_test_vectors.md,
96_test_vectors_commands.md), and a state that meets the hypotheses of each statement. -/

namespace Sys2Proof.Tests

open Sys2Proof.Machine

/- One theorem at a time: elaborated side by side, the kernel evaluations below each hold a thread of their own, and the
reserved stacks add up to more than the memory limit of the check. -/
set_option Elab.async false

/-! ### Helpers -/

/-- The next state, if there is one. -/
def nextOf : Host.Outcome State Fault Refusal → Option State
  | .next t => some t
  | .fault _ => none
  | .refused _ => none

/-- What a command does to a state, through exec. -/
def after (i : Instr) (s : State) : Option State := nextOf (exec i s)

/-- The output trace after a command; the states below start with an empty one. -/
def sent (i : Instr) (s : State) : Option (List Event) := (after i s).map fun t => t.trace

/-- The command leaves a next state with the property. -/
def leaves (i : Instr) (s : State) (p : State → Bool) : Bool := (after i s).any p

/-- A property of the next state, read as the existence of that state. -/
theorem exists_next {o : Host.Outcome State Fault Refusal} {p : State → Bool} (h : (nextOf o).any p = true) :
    ∃ t, o = .next t ∧ p t = true := by
  cases o with
  | next t => exact ⟨t, rfl, h⟩
  | fault r => cases r
  | refused r => simp [nextOf] at h

/-- The core after reset and `INIT 44100`, its trace taken out. -/
def ready : State := { State.reset.setImage .status 0x0F with sr := 44100, init := true }

/-- A channel sounding a note. -/
def withVoice (c : Chan) (n : Note) (v : Velocity) (stamp : Nat) (s : State) : State :=
  { s.setEntry c { s.entry c with note := some n, vel := v, stamp := stamp } with stampCounter := stamp }

/-- `ready` in a mode. -/
def inMode (m : Mode) : State := { ready with mode := m }

/-- The three base melodic channels sounding, RoundRobin. -/
def busy : State := withVoice .triangle 67 100 3 (withVoice .pulse2 64 100 2 (withVoice .pulse1 60 100 1 ready))

/-- All six melodic channels sounding, expansion unit on. -/
def full : State :=
  { withVoice .expSawtooth 36 100 6 (withVoice .expPulse2 52 100 5 (withVoice .expPulse1 24 64 4 busy)) with
    expEn := true }

/-- Noise sounding note 36 in MidiChannelSplit mode. -/
def drumming : State := withVoice .noise 36 64 1 (inMode .midiChannelSplit)

/-- A core halted by an uninitialised TICK. -/
def halted : State := { State.reset with fault := true }

/-- The statement's invariants as a computation. -/
def meetsInvariants (s : State) : Bool :=
  (s.entry .sample).note == none &&
  Chan.all.all (fun c => s.expEn || c.isBase || (s.entry c).note == none) &&
  decide (s.order.toList.Perm Chan.melodic) &&
  Chan.all.all (fun c => decide ((s.entry c).stamp ≤ s.stampCounter)) &&
  Chan.all.all (fun c => Chan.all.all fun d =>
    !s.sounding c || !s.sounding d || (s.entry c).stamp != (s.entry d).stamp || c == d) &&
  (!s.init || (s.sr != 0 && decide (s.acc < 10 * s.sr.toNat))) &&
  (s.init || s.acc == 0) && (!s.fault || !s.init) &&
  (s.image .status == s.statusMask || (s.image .status == 0x00 && s.statusMask == 0x0F && !s.init))

theorem invariants_of_meets {s : State} (h : meetsInvariants s = true) : Invariants s := by
  simp only [meetsInvariants, Bool.and_eq_true, List.all_eq_true] at h
  obtain ⟨⟨⟨⟨⟨⟨⟨⟨h1, h2⟩, h3⟩, h4⟩, h5⟩, h6⟩, h7⟩, h8⟩, h9⟩ := h
  refine ⟨by simpa using h1, fun he c hc => ?_, by simpa using h3, fun c => ?_, fun c d hc hd hcd => ?_, fun hi => ?_,
    fun hi => ?_, fun hf => ?_, by simpa [and_assoc] using h9⟩
  · simpa [he, hc] using h2 c (Chan.mem_all c)
  · simpa using h4 c (Chan.mem_all c)
  · simpa [hc, hd, hcd] using h5 c (Chan.mem_all c) d (Chan.mem_all d)
  · simpa [hi] using h6
  · simpa [hi] using h7
  · simpa [hf] using h8

/-! ### WellFormed: each check refuses an ill-formed parameter set (93_implementation_defined.md U11, U12) -/

theorem smoke_defaults_accepted : defaultConfig.wellFormed = true := by decide +kernel
theorem smoke_clockPositive : { defaultConfig with mclkDen := 0 }.clockPositive = false := by decide
theorem smoke_clockFitsAdvance : { defaultConfig with mclkNum := 2 ^ 36 }.clockFitsAdvance = false := by decide
theorem smoke_sawDivisorPositive : { defaultConfig with sawDivisor := 0 }.sawDivisorPositive = false := by decide
theorem smoke_sawShiftSmall : { defaultConfig with sawRateShift := 3 }.sawShiftSmall = false := by decide
theorem smoke_envOffBits : { defaultConfig with envOff := 0x38 }.envOffBits = false := by decide
theorem smoke_addrInjective : { defaultConfig with addr := fun _ => 0x4000 }.addrInjective = false := by decide
theorem smoke_hintMapLegal_primary :
    { defaultConfig with hintMap := fun _ => some (.sample, .pulse1) }.hintMapLegal = false := by decide
theorem smoke_hintMapLegal_fallback :
    { defaultConfig with hintMap := fun _ => some (.expPulse1, .sample) }.hintMapLegal = false := by decide

/-! ### Decoding: words written out bit by bit from 30_encoding.md R91 to R95 and R104 -/

theorem decode_init : decode 0b00000001_000000001010110001000100 = .command (.init 44100) := by decide
theorem decode_tick : decode 0b00000010_000000000000000000000011 = .command (.tick 3) := by decide
theorem decode_noteOn : decode 0b00010000_1001_0000_11111101_11001000 = .command (.noteOn 9 0xFD 200) := by decide
theorem decode_noteOn_ignored :
    decode 0b00010000_0000_1111_00111100_01100100 = .command (.noteOn 0 60 100) := by decide
theorem decode_noteOff : decode 0b00010001_0000_0000_00111100_00000000 = .command (.noteOff 0 60) := by decide
theorem decode_noteOff_ignored :
    decode 0b00010001_0000_0101_00111100_11111111 = .command (.noteOff 0 60) := by decide
theorem decode_allNotesOff : decode 0b00010010_111111111111111111111111 = .command .allNotesOff := by decide
theorem decode_getChannel : decode 0b00010011_1111_1111_00111100_11111111 = .command (.getChannel 60) := by decide
theorem decode_setChannelEnabled :
    decode 0b00100000_11111111_00000100_00000001 = .command (.setChannelEnabled 4 1) := by decide
theorem decode_setPulseDuty : decode 0b00100001_00000000_00000001_00000010 = .command (.setPulseDuty 1 2) := by decide
theorem decode_setNoiseMode : decode 0b00100010_1111111111111111_00000001 = .command (.setNoiseMode 1) := by decide
theorem decode_setExpansionEnabled :
    decode 0b00100011_0000000000000000_00001001 = .command (.setExpansionEnabled 9) := by decide
theorem decode_setExpPulseDuty :
    decode 0b00100100_00000000_00000001_00001001 = .command (.setExpPulseDuty 1 9) := by decide
theorem decode_setAllocMode : decode 0b00100101_0000000000000000_00000010 = .command (.setAllocMode 2) := by decide
theorem decode_setSplitPoint : decode 0b00100110_0000000000000000_00111100 = .command (.setSplitPoint 60) := by decide
theorem decode_setChannelOrder :
    decode 0b00100111_0000_0001_0010_0101_0110_0111 = .command (.setChannelOrder 0x012567) := by decide
theorem decode_reserved : decode 0x00000000 = .reserved 0x00 ∧ decode 0x0F010203 = .reserved 0x0F ∧
    decode 0x14FFFFFF = .reserved 0x14 ∧ decode 0x28000000 = .reserved 0x28 ∧ decode 0xFFFFFFFF = .reserved 0xFF := by decide
theorem decode_table_word : decodeTableWord 32 0x10003C64 = some (.noteOn 0 60 100) ∧
    decodeTableWord 32 0x03000000 = none := by decide

/-- The entries of SET_CHANNEL_ORDER are read from bits 23:20 down (R98). -/
theorem order_entries : (List.range 6).map (orderEntry 0x726150) = [7, 2, 6, 1, 5, 0] := by decide

/-! ### One step per command -/

/-- R66's addresses of the registers that no vector below writes. -/
theorem addresses : defaultAddr .p2Phi = 0x4007 ∧ defaultAddr .triPlo = 0x400A ∧ defaultAddr .noiLen = 0x400F ∧
    defaultAddr .x2Plo = 0xA001 ∧ defaultAddr .sawPhi = 0xB002 ∧ defaultAddr .status = 0x4015 := by decide

/-- 96_test_vectors_commands.md 2.10, command 2, through the fetch. -/
theorem step_fetches : (nextOf (step (State.reset.withFetchWord 32 0x02000000))).any (fun t => t.fault && t.trace == []) := by
  decide +kernel

/-- R122. -/
theorem test_init : sent (.init 44100) full = some [.configureClock 17897727 10 44100, .resetState, .memWrite 0x4015 0x0F] ∧
    leaves (.init 44100) full (fun t => (t.entry .expSawtooth).note == none && t.stampCounter == 0 && t.expEn) := by
  decide +kernel
/-- R122, R123 and 95_test_vectors.md S8: 40 pulses, remainder 257727 of 441000. -/
theorem test_tick : sent (.tick 1) ready = some [.advance 40, .renderFrame] ∧
    leaves (.tick 1) ready (fun t => t.acc == 257727) := by decide +kernel
/-- 96_test_vectors_commands.md 2.10, command 2. -/
theorem test_tick_faults : leaves (.tick 0) State.reset (fun t => t.fault && t.trace == []) := by decide +kernel
/-- 95_test_vectors.md S4, command 4. -/
theorem test_noteOn_steals : sent (.noteOn 0 72 100) busy = some [.memWrite 0x4000 0x30, .memWrite 0x4000 0x3C,
    .memWrite 0x4002 0xD5, .memWrite 0x4003 0xF8, .respond 0] := by decide +kernel
/-- 96_test_vectors_commands.md 2.9, MidiChannelSplit, command 2. -/
theorem test_noteOn_hint : sent (.noteOn 9 100 64) drumming = some [.memWrite 0x400C 0x30, .memWrite 0x400C 0x38,
    .memWrite 0x400E 0x03, .memWrite 0x400F 0xF8, .respond 3] := by decide +kernel
/-- 96_test_vectors_commands.md 2.9, the field −128 names note 0. -/
theorem test_noteOff_clamps : sent (.noteOff 0 0x80) (withVoice .pulse1 0 100 1 ready) = some [.memWrite 0x4000 0x30] := by
  decide +kernel
/-- 95_test_vectors.md S2: the velocity and the stamp stay. -/
theorem test_noteOff_entry : leaves (.noteOff 0 60) busy (fun t =>
    t.entry .pulse1 == { enabled := true, note := none, vel := 100, stamp := 1 }) := by decide +kernel
/-- 96_test_vectors_commands.md 2.9, ALL_NOTES_OFF in ascending index. -/
theorem test_allNotesOff : sent .allNotesOff (withVoice .expSawtooth 36 100 2 drumming) =
    some [.memWrite 0x400C 0x30, .memWrite 0xB000 0x00] := by decide +kernel
theorem test_getChannel : sent (.getChannel 64) busy = some [.respond 1] ∧ sent (.getChannel 0xFF) busy = some [.respond 0xFF] := by
  decide +kernel
/-- 96_test_vectors_commands.md 2.8. -/
theorem test_setChannelEnabled_base : sent (.setChannelEnabled 4 1) ready = some [.memWrite 0x4015 0x1F] := by decide +kernel
theorem test_setChannelEnabled_expansion :
    sent (.setChannelEnabled 5 0) (full.setImage .x1Phi 0x8D) = some [.memWrite 0x9002 0x0D] := by decide +kernel
/-- 96_test_vectors_commands.md 2.7. -/
theorem test_setPulseDuty : sent (.setPulseDuty 0 200) busy = some [.memWrite 0x4000 0xFC] ∧
    sent (.setPulseDuty 1 1) ready = some [] ∧ sent (.setPulseDuty 2 1) busy = some [] := by decide +kernel
theorem test_setExpPulseDuty : sent (.setExpPulseDuty 1 9) full = some [.memWrite 0xA000 0x7C] ∧
    leaves (.setExpPulseDuty 0 5) ready (fun t => t.xduty == #v[5, 0]) := by decide +kernel
theorem test_setNoiseMode : sent (.setNoiseMode 255) drumming = some [.memWrite 0x400E 0x8B] ∧
    sent (.setNoiseMode 1) ready = some [] := by decide +kernel
theorem test_setExpansionEnabled : sent (.setExpansionEnabled 0) full =
    some [.memWrite 0x9002 0x00, .memWrite 0xA002 0x00, .memWrite 0xB002 0x00] ∧
    leaves (.setExpansionEnabled 0) full (fun t => (t.entry .expPulse2).note == none && (t.entry .pulse1).note == some 60) := by
  decide +kernel
theorem test_setAllocMode : leaves (.setAllocMode 2) ready (fun t => t.mode == .pitchSplit) ∧
    leaves (.setAllocMode 9) ready (fun t => t == ready) := by decide +kernel
theorem test_setSplitPoint : leaves (.setSplitPoint 48) ready (fun t => t.split == 48) ∧
    leaves (.setSplitPoint 0xFB) ready (fun t => t.split == 0) := by decide +kernel
theorem test_setChannelOrder :
    leaves (.setChannelOrder 0x567012) ready (fun t => t.order == #v[.expPulse1, .expPulse2, .expSawtooth, .pulse1, .pulse2, .triangle]) ∧
    leaves (.setChannelOrder 0x012367) ready (fun t => t == ready) := by decide +kernel

/-- 41_encoder.md and 95_test_vectors.md 2.1: note 60. -/
theorem test_periods : period defaultConfig 60 .pulse1 = some 427 ∧ period defaultConfig 33 .pulse2 = some 2033 ∧
    period defaultConfig 21 .expPulse1 = some 4067 := by decide +kernel

/-! ### Witnesses: states and operands that meet the hypotheses of each statement -/

theorem witness_EncodedCommandDecodesBack : (Instr.noteOn 15 0xFF 0xFF).wellFormed = true := rfl

theorem witness_DecodedWordKeepsItsSignificantBits : decode 0x11FFFFFF = .command (.noteOff 15 0xFF) := by decide

theorem witness_DecodingIsByTheTopByte : decode 0x27FFFFFF = .command (.setChannelOrder 0xFFFFFF) := by decide

/-- One word per range of R101, at both ends. -/
theorem witness_ReservedOpcodeIsNoOperation :
    (State.reset.present 0x00FFFFFF).input = .command 0x00FFFFFF :: [] ∧ (0x00FFFFFF#32).toNat / 2 ^ 24 = 0x00 ∧
    (0x03000000#32).toNat / 2 ^ 24 = 0x03 ∧ (0x0FFFFFFF#32).toNat / 2 ^ 24 = 0x0F ∧ (0x14000000#32).toNat / 2 ^ 24 = 0x14 ∧
    (0x1FFFFFFF#32).toNat / 2 ^ 24 = 0x1F ∧ (0x28000000#32).toNat / 2 ^ 24 = 0x28 ∧ (0xFFFFFFFF#32).toNat / 2 ^ 24 = 0xFF := by
  decide

theorem witness_IgnoredBitsHaveNoEffect : busy.mode ≠ .midiChannelSplit := by decide

theorem witness_StepRunsTheDecodedCommand :
    (busy.present 0x10003C64).input = .command 0x10003C64 :: [] ∧ decode 0x10003C64 = .command (.noteOn 0 60 100) := by decide

theorem witness_EveryStepHasANextState : State.reset.input = [] := rfl

theorem witness_ResetPulseRestoresTheResetState :
    ({ full with input := [.reset] } : State).input = .reset :: [] ∧
    ({ halted with input := [.reset, .command 0] } : State).input = .reset :: [.command 0] := ⟨rfl, rfl⟩

theorem witness_NotInitialisedHaltsTheCore :
    State.reset.fault = false ∧ State.reset.init = false ∧ halted.fault = true := ⟨rfl, rfl, rfl⟩

/-- A TICK that faults, one that does not, and another command. -/
theorem witness_OnlyAnUninitialisedTickFaults : State.reset.fault = false ∧ ready.fault = false ∧
    (∃ t, exec (.tick 0) State.reset = .next t ∧ t.fault) ∧ (∃ t, exec (.tick 1) ready = .next t ∧ !t.fault) ∧
    (∃ t, exec (.noteOn 0 60 100) State.reset = .next t ∧ !t.fault) :=
  ⟨rfl, rfl, exists_next (by decide +kernel), exists_next (by decide +kernel), exists_next (by decide +kernel)⟩

/-- A halted step that stays halted and one that resets. -/
theorem witness_OnlyResetClearsTheFault :
    (∃ t, step (halted.present 0x0100AC44) = .next t ∧ t.fault) ∧
    (∃ t, step { halted with input := [.reset] } = .next t ∧ !t.fault) ∧ halted.fault = true :=
  ⟨exists_next (by decide +kernel), exists_next (by decide +kernel), rfl⟩

theorem witness_StepKeepsTheInvariants : Invariants (full.present 0x10004C64) ∧
    ∃ t, step (full.present 0x10004C64) = .next t ∧ t != full :=
  ⟨invariants_of_meets (by decide +kernel), exists_next (by decide +kernel)⟩

theorem witness_EveryWriteIsToANamedRegister : ∃ t, step (busy.present 0x10004C64) = .next t ∧ t != busy :=
  exists_next (by decide +kernel)

theorem witness_ImageIsTheLastByteWritten : ∃ t, exec (.noteOn 0 72 100) busy = .next t ∧ t != busy :=
  exists_next (by decide +kernel)

theorem witness_CommandsReadNeitherTraceNorInput : ∃ t, exec (.noteOn 0 72 100) busy = .next t ∧ t != busy :=
  exists_next (by decide +kernel)

theorem witness_AtMostTwentyFourWritesPerCommand :
    (∀ n, Instr.noteOn 0 60 100 ≠ .tick n) ∧ Invariants { full with mode := .unison } ∧
    ({ full with mode := .unison } : State).expEn = true ∧
    (∀ c : Chan, c.isMelodic = true → (({ full with mode := .unison } : State).entry c).note ≠ none) ∧
    ∃ t, exec (.noteOn 0 60 100) { full with mode := .unison } = .next t ∧ t.trace.countP Event.isWrite == 24 :=
  ⟨by simp, invariants_of_meets (by decide +kernel), rfl, fun c => by cases c <;> decide +kernel, exists_next (by decide +kernel)⟩

/-- Each premise of the statement is met by some command. -/
theorem witness_CommandsWriteOnlyTheirState :
    leaves (.noteOn 0 72 100) busy (fun t => (t.entry .pulse1).note != (busy.entry .pulse1).note &&
      (t.entry .pulse1).stamp != (busy.entry .pulse1).stamp && t.image .p1Plo != busy.image .p1Plo) ∧
    leaves (.setChannelEnabled 0 0) busy (fun t => (t.entry .pulse1).enabled != (busy.entry .pulse1).enabled) ∧
    leaves (.setAllocMode 0) busy (fun t => t.mode != busy.mode) ∧
    leaves (.setSplitPoint 0) busy (fun t => t.split != busy.split) ∧
    leaves (.setChannelOrder 0x765210) busy (fun t => t.order != busy.order) ∧
    leaves (.setPulseDuty 1 3) busy (fun t => t.duty != busy.duty) ∧
    leaves (.setExpPulseDuty 0 1) busy (fun t => t.xduty != busy.xduty) ∧
    leaves (.setNoiseMode 1) busy (fun t => t.noiseMode != busy.noiseMode) ∧
    leaves (.setExpansionEnabled 1) busy (fun t => t.expEn != busy.expEn) ∧
    leaves (.init 0) busy (fun t => t.sr != busy.sr && t.init != busy.init) ∧
    leaves (.tick 1) busy (fun t => t.acc != busy.acc) ∧
    leaves (.tick 0) State.reset (fun t => t.fault != State.reset.fault) := by decide +kernel

/-- A mode other than MidiChannelSplit with the unit off, and MidiChannelSplit with another hint. -/
theorem witness_NoteOnReachesOnlyItsChannels :
    Invariants busy ∧ busy.fault = false ∧ busy.mode ≠ .midiChannelSplit ∧ busy.expEn = false ∧
    leaves (.noteOn 9 72 100) busy (fun t => t.entry .pulse1 != busy.entry .pulse1) ∧
    Invariants drumming ∧ leaves (.noteOn 3 72 100) drumming (fun t => t.entry .pulse1 != drumming.entry .pulse1) :=
  ⟨invariants_of_meets (by decide +kernel), rfl, by decide, rfl, by decide +kernel, invariants_of_meets (by decide +kernel),
    by decide +kernel⟩

theorem witness_ActiveSetHasThreeOrSixMembers :
    Invariants busy ∧ busy.expEn = false ∧ Invariants full ∧ full.expEn = true :=
  ⟨invariants_of_meets (by decide +kernel), rfl, invariants_of_meets (by decide +kernel), rfl⟩

theorem witness_InitSetsUpTheCore : full.fault = false ∧ (0xFFFFFF : BitVec 24) ≠ 0 := ⟨rfl, by decide⟩

/-- The largest remainder below one pulse. -/
theorem witness_TickRendersItsSamples :
    ({ ready with acc := 440999 } : State).acc < 10 * ready.sr.toNat ∧ ready.fault = false ∧ ready.init = true := by decide

theorem witness_TicksAddUp : (1 : BitVec 24).toNat + (0xFFFFFE : BitVec 24).toNat < 2 ^ 24 ∧ ∃ t, exec (.tick 1) ready = .next t ∧ t != ready :=
  ⟨by decide, exists_next (by decide +kernel)⟩

theorem witness_PulseTotalsNeverDrift : ready.fault = false ∧ ready.init = true ∧ ready.sr ≠ 0 ∧ ready.acc = 0 ∧
    ∀ i ∈ [Instr.tick 2, .allNotesOff, .tick 1], ∀ r, i ≠ .init r := by
  refine ⟨rfl, rfl, by decide, rfl, fun i hi r => ?_⟩
  simp at hi; rcases hi with rfl | rfl | rfl <;> simp

theorem witness_PeriodIsTheLargestFit : defaultConfig.wellFormed = true ∧ 0 < 16 := ⟨smoke_defaults_accepted, by decide⟩

theorem witness_PeriodMatchesTheRealFormula :
    { defaultConfig with sawDivisor := 1, mclkNum := 1, mclkDen := 1 }.wellFormed = true ∧ 0 < 14 := by decide +kernel

theorem witness_PeriodIsMonotoneAndClamps : defaultConfig.wellFormed = true ∧ (20 : Note) ≤ 21 ∧
    period defaultConfig 20 .expPulse1 = some 4095 ∧ period defaultConfig 21 .expPulse1 = some 4067 := by decide +kernel

theorem witness_NoiseIndexVolumeAndSawRate : (0 : Velocity) ≤ 127 := by decide

/-- A pulse index out of range, and each pulse sounding and silent. -/
theorem witness_SetPulseDutyStoresAndRewrites : busy.fault = false ∧ 1 < (2 : BitVec 8).toNat ∧
    (0 : BitVec 8).toNat = (0 : Fin 2).val ∧ (1 : BitVec 8).toNat = (1 : Fin 2).val ∧
    (busy.entry .pulse1).note ≠ none ∧ (busy.entry .pulse2).note ≠ none ∧
    (ready.entry .pulse1).note = none ∧ (ready.entry .pulse2).note = none := by decide

theorem witness_SetExpPulseDutyStoresAndRewrites : full.fault = false ∧ 1 < (2 : BitVec 8).toNat ∧
    (full.entry .expPulse1).note ≠ none ∧ (full.entry .expPulse2).note ≠ none ∧
    (ready.entry .expPulse1).note = none ∧ (ready.entry .expPulse2).note = none := by decide

theorem witness_SetNoiseModeStoresAndRewrites :
    drumming.fault = false ∧ (drumming.entry .noise).note = some 36 ∧ (ready.entry .noise).note = none := by decide

/-- The first index out of range; a flag that stays; SampleChannel; an expansion channel with the unit off and on. -/
theorem witness_SetChannelEnabledWritesTheChange : 7 < (8 : BitVec 8).toNat ∧ ready.fault = false ∧
    (ready.entry .expSawtooth).enabled = true ∧ (ready.entry .sample).enabled = false ∧
    Chan.sample.index.val = (4 : BitVec 8).toNat ∧ Chan.expPulse1.index.val = (5 : BitVec 8).toNat ∧
    Chan.expSawtooth.index.val = (7 : BitVec 8).toNat ∧ ready.expEn = false ∧ full.fault = false ∧ full.expEn = true ∧
    (full.entry .expPulse1).enabled = true ∧ (full.entry .expPulse2).enabled = true ∧
    (full.entry .expSawtooth).enabled = true := by decide

theorem witness_SetExpansionEnabledSwitchesTheUnit : ready.fault = false ∧ ready.expEn = false ∧ full.fault = false ∧
    full.expEn = true ∧ (true = true ↔ (1 : BitVec 8).toNat ≠ 0) ∧ (false = true ↔ (0 : BitVec 8).toNat ≠ 0) := by decide

theorem witness_FixedMonoBindsTheFirstActiveChannel :
    Invariants (inMode .fixedMono) ∧ (inMode .fixedMono).fault = false ∧ (inMode .fixedMono).mode = .fixedMono :=
  ⟨invariants_of_meets (by decide +kernel), rfl, rfl⟩

/-- A note that an active channel holds, one that none holds with a channel free, and one with none free. -/
theorem witness_RoundRobinRetriggersElseFreeElseSteals :
    Invariants busy ∧ busy.fault = false ∧ busy.mode = .roundRobin ∧
    (∃ d ∈ busy.active, (busy.entry d).note = some (clampedNote 64)) ∧
    (∀ d ∈ busy.active, (busy.entry d).note ≠ some (clampedNote 72)) ∧ (∀ d ∈ busy.active, (busy.entry d).note ≠ none) ∧
    (∃ d ∈ ready.active, (ready.entry d).note = none) :=
  ⟨invariants_of_meets (by decide +kernel), rfl, rfl, by decide +kernel, by decide +kernel, by decide +kernel, by decide +kernel⟩

/-- A note just below the split point and the split point itself. -/
theorem witness_PitchSplitStaysInItsGroup :
    (inMode .pitchSplit).fault = false ∧ (inMode .pitchSplit).mode = .pitchSplit ∧
    (clampedNote 59).val < (inMode .pitchSplit).split.val ∧ ¬ (clampedNote 60).val < (inMode .pitchSplit).split.val := by decide

theorem witness_MidiChannelSplitFollowsTheHint : drumming.fault = false ∧ drumming.mode = .midiChannelSplit ∧
    ((5 : BitVec 4).toNat, Chan.expSawtooth.index.val, Chan.triangle.index.val) ∈
      [(0, 0, 0), (1, 1, 1), (2, 2, 2), (3, 5, 0), (4, 6, 1), (5, 7, 2), (9, 3, 3)] ∧
    ((9 : BitVec 4).toNat, Chan.noise.index.val, Chan.noise.index.val) ∈
      [(0, 0, 0), (1, 1, 1), (2, 2, 2), (3, 5, 0), (4, 6, 1), (5, 7, 2), (9, 3, 3)] ∧
    (6 : BitVec 4).toNat ∈ [6, 7, 8, 10, 11, 12, 13, 14, 15] ∧ (15 : BitVec 4).toNat ∈ [6, 7, 8, 10, 11, 12, 13, 14, 15] := by
  decide

theorem witness_UnisonBindsEveryActiveChannel :
    Invariants { full with mode := .unison } ∧ full.fault = false ∧ ({ full with mode := .unison } : State).mode = .unison :=
  ⟨invariants_of_meets (by decide +kernel), rfl, rfl⟩

theorem witness_RetriggerAnswersTheSameChannel : Invariants busy ∧ busy.fault = false ∧ busy.mode = .roundRobin ∧
    ((after (.noteOn 0 72 100) busy).bind (after (.noteOn 3 72 50))).isSome :=
  ⟨invariants_of_meets (by decide +kernel), rfl, rfl, by decide +kernel⟩

theorem witness_VelocityZeroStillBinds : Invariants busy ∧ busy.fault = false ∧ busy.mode ≠ .midiChannelSplit :=
  ⟨invariants_of_meets (by decide +kernel), rfl, by decide⟩

theorem witness_NoteOffReleasesEveryHolder :
    busy.fault = false ∧ (busy.entry .pulse1).note = some (clampedNote 60) := by decide

theorem witness_NoteOffAfterNoteOnLeavesNoHolder : busy.fault = false ∧
    ((after (.noteOn 0 72 100) busy).bind (after (.noteOff 3 72))).isSome := by decide +kernel

theorem witness_AllNotesOffReleasesAndIsIdempotent : full.fault = false := rfl

/-- A note nobody holds, and one whose smallest holder is not channel 0. -/
theorem witness_GetChannelAnswersTheSmallestHolder : busy.fault = false ∧
    (∀ c : Chan, (busy.entry c).note ≠ some (clampedNote 0)) ∧ (busy.entry .triangle).note = some (clampedNote 67) ∧
    (∀ d : Chan, d.index < Chan.triangle.index → (busy.entry d).note ≠ some (clampedNote 67)) :=
  ⟨rfl, fun c => by cases c <;> decide, by decide, fun d => by cases d <;> decide⟩

theorem witness_SetAllocModeSetsTheModeOnly :
    busy.fault = false ∧ Mode.unison.number = (4 : BitVec 8).toNat ∧ 4 < (5 : BitVec 8).toNat := by decide

theorem witness_SetSplitPointSetsTheSplitOnly : busy.fault = false := rfl

/-- A permutation, and six entries that are none: one twice, and Noise. -/
theorem witness_SetChannelOrderTakesPermutationsOnly : busy.fault = false ∧
    ((List.range 6).map fun j => (0x765210 : BitVec 24).toNat / 2 ^ (20 - 4 * j) % 16).Perm [0, 1, 2, 5, 6, 7] ∧
    (#v[Chan.expSawtooth, .expPulse2, .expPulse1, .triangle, .pulse2, .pulse1].toList.map (fun c => c.index.val) =
      (List.range 6).map fun j => (0x765210 : BitVec 24).toNat / 2 ^ (20 - 4 * j) % 16) ∧
    ¬ ((List.range 6).map fun j => (0x001256 : BitVec 24).toNat / 2 ^ (20 - 4 * j) % 16).Perm [0, 1, 2, 5, 6, 7] ∧
    ¬ ((List.range 6).map fun j => (0x012367 : BitVec 24).toNat / 2 ^ (20 - 4 * j) % 16).Perm [0, 1, 2, 5, 6, 7] := by
  decide +kernel

theorem witness_AnotherAddressMapOnlyRenames :
    (∀ r, (fun r => defaultAddr r + 1) r = (fun a => a + 1) (defaultConfig.addr r)) ∧
    ∃ t, execWith defaultConfig (.noteOn 0 72 100) busy = .next t ∧ t != busy :=
  ⟨fun _ => rfl, exists_next (by decide +kernel)⟩

theorem witness_RunsWithoutInitZeroStaySafe : ready.running ∧ ready.init = true ∧
    ∀ i ∈ [Instr.tick 2, .init 48000, .tick 1], i ≠ .init 0 := by
  refine ⟨rfl, rfl, fun i hi => ?_⟩
  simp at hi; rcases hi with rfl | rfl | rfl <;> decide

end Sys2Proof.Tests
end

/-! ### The scope: what a command reads beside its operands

A command is placed in a context, the events sent before it and the input that waits behind it. Every operation of the
machine commutes with placing, so the context has no influence on a command (R19, R62, R34). -/

namespace Sys2Proof.Machine

section Context

variable (sent : List Event) (waiting : List PortInput)

/-- The state with `sent` already on the trace before what it sent itself, and `waiting` as the input behind it. -/
def State.inContext (s : State) : State := { s with trace := sent ++ s.trace, input := waiting }

/-! #### Reading a placed state -/

@[simp] theorem State.inContext_entry (s : State) (c : Chan) : (s.inContext sent waiting).entry c = s.entry c := rfl

@[simp] theorem State.inContext_image (s : State) (r : Reg) : (s.inContext sent waiting).image r = s.image r := rfl

@[simp] theorem State.inContext_expEn (s : State) : (s.inContext sent waiting).expEn = s.expEn := rfl

@[simp] theorem State.inContext_init (s : State) : (s.inContext sent waiting).init = s.init := rfl

@[simp] theorem noteOnWrites_inContext (cfg : Config) (s : State) (n : Note) (v : Velocity) (c : Chan) :
    noteOnWrites cfg (s.inContext sent waiting) n v c = noteOnWrites cfg s n v c :=
  noteOnWrites_congr cfg n v c rfl rfl rfl rfl

@[simp] theorem noteOffWrites_inContext (cfg : Config) (s : State) (c : Chan) :
    noteOffWrites cfg (s.inContext sent waiting) c = noteOffWrites cfg s c :=
  noteOffWrites_congr cfg c rfl rfl

@[simp] theorem firstHolding_inContext (s : State) (g : List Chan) (note : Option Note) :
    firstHolding (s.inContext sent waiting) g note = firstHolding s g note := rfl

@[simp] theorem targets_inContext (cfg : Config) (s : State) (hint : BitVec 4) (n : Note) :
    targets cfg (s.inContext sent waiting) hint n = targets cfg s hint n := rfl

/-! #### The shared operations on a placed state -/

@[simp] theorem setEntry_inContext (s : State) (c : Chan) (e : Entry) :
    (s.inContext sent waiting).setEntry c e = (s.setEntry c e).inContext sent waiting := rfl

/-- The one operation that touches the trace appends to it, so what was sent before stays in front. -/
@[simp] theorem emit_inContext (e : Event) (s : State) :
    emit e (s.inContext sent waiting) = (emit e s).inContext sent waiting := by
  simp [emit, State.inContext]

@[simp] theorem respond_inContext (c : Option Chan) (s : State) :
    respond c (s.inContext sent waiting) = (respond c s).inContext sent waiting :=
  emit_inContext sent waiting _ s

@[simp] theorem busWrite_inContext (cfg : Config) (r : Reg) (v : Byte) (s : State) :
    busWrite cfg r v (s.inContext sent waiting) = (busWrite cfg r v s).inContext sent waiting :=
  emit_inContext sent waiting _ (s.setImage r v)

@[simp] theorem busWrites_inContext (cfg : Config) (ws : List (Reg × Byte)) (s : State) :
    busWrites cfg ws (s.inContext sent waiting) = (busWrites cfg ws s).inContext sent waiting :=
  List.foldl_hom (State.inContext sent waiting) fun s w => busWrite_inContext sent waiting cfg w.1 w.2 s

@[simp] theorem writeStatus_inContext (cfg : Config) (s : State) :
    writeStatus cfg (s.inContext sent waiting) = (writeStatus cfg s).inContext sent waiting :=
  busWrite_inContext sent waiting cfg .status s.statusMask s

/-- An operation that a test guards commutes with placing when the operation does. -/
theorem ite_inContext (p : Prop) [Decidable p] (f : State → State) (s : State)
    (hf : f (s.inContext sent waiting) = (f s).inContext sent waiting) :
    (if p then f (s.inContext sent waiting) else s.inContext sent waiting)
      = (if p then f s else s).inContext sent waiting := by
  split
  · exact hf
  · rfl

/-! #### The voice allocator -/

@[simp] theorem noteOffRecipe_inContext (cfg : Config) (c : Chan) (s : State) :
    noteOffRecipe cfg c (s.inContext sent waiting) = (noteOffRecipe cfg c s).inContext sent waiting := by
  simp [noteOffRecipe]

theorem evict_inContext (cfg : Config) (c : Chan) (s : State) :
    evict cfg c (s.inContext sent waiting) = (evict cfg c s).inContext sent waiting :=
  ite_inContext sent waiting _ (noteOffRecipe cfg c) s (noteOffRecipe_inContext sent waiting cfg c s)

theorem stampVoice_inContext (c : Chan) (n : Note) (v : Velocity) (s : State) :
    stampVoice c n v (s.inContext sent waiting) = (stampVoice c n v s).inContext sent waiting := rfl

theorem bindVoice_inContext (cfg : Config) (c : Chan) (n : Note) (v : Velocity) (s : State) :
    bindVoice cfg c n v (s.inContext sent waiting) = (bindVoice cfg c n v s).inContext sent waiting := by
  simp [bindVoice, noteOnRecipe, evict_inContext, stampVoice_inContext]

theorem bindAll_inContext (cfg : Config) (t : List Chan) (n : Note) (v : Velocity) (s : State) :
    bindAll cfg t n v (s.inContext sent waiting) = (bindAll cfg t n v s).inContext sent waiting :=
  List.foldl_hom (State.inContext sent waiting) fun s c => bindVoice_inContext sent waiting cfg c n v s

theorem startNote_inContext (cfg : Config) (hint : BitVec 4) (note vel : BitVec 8) (s : State) :
    startNote cfg hint note vel (s.inContext sent waiting) = (startNote cfg hint note vel s).inContext sent waiting := by
  simp [startNote, bindAll_inContext]

theorem releaseVoice_inContext (cfg : Config) (c : Chan) (s : State) :
    releaseVoice cfg c (s.inContext sent waiting) = (releaseVoice cfg c s).inContext sent waiting := by
  simp [releaseVoice]

theorem stopNote_inContext (cfg : Config) (note : BitVec 8) (s : State) :
    stopNote cfg note (s.inContext sent waiting) = (stopNote cfg note s).inContext sent waiting :=
  List.foldl_hom (State.inContext sent waiting) fun s c =>
    ite_inContext sent waiting _ (releaseVoice cfg c) s (releaseVoice_inContext sent waiting cfg c s)

theorem stopAllNotes_inContext (cfg : Config) (s : State) :
    stopAllNotes cfg (s.inContext sent waiting) = (stopAllNotes cfg s).inContext sent waiting :=
  List.foldl_hom (State.inContext sent waiting) fun s c =>
    ite_inContext sent waiting _ (releaseVoice cfg c) s (releaseVoice_inContext sent waiting cfg c s)

theorem answerChannel_inContext (note : BitVec 8) (s : State) :
    answerChannel note (s.inContext sent waiting) = (answerChannel note s).inContext sent waiting := by
  simp [answerChannel]

theorem allocModeChange_inContext (m : BitVec 8) (s : State) :
    allocModeChange m (s.inContext sent waiting) = (allocModeChange m s).inContext sent waiting := by
  unfold allocModeChange; cases modeOperand m <;> rfl

theorem splitPointChange_inContext (note : BitVec 8) (s : State) :
    splitPointChange note (s.inContext sent waiting) = (splitPointChange note s).inContext sent waiting := rfl

theorem channelOrderChange_inContext (imm : BitVec 24) (s : State) :
    channelOrderChange imm (s.inContext sent waiting) = (channelOrderChange imm s).inContext sent waiting := by
  unfold channelOrderChange; cases orderOperand imm <;> rfl

/-! #### The enable flags and the expansion unit -/

theorem setEnabled_inContext (s : State) (c : Chan) (b : Bool) :
    (s.inContext sent waiting).setEnabled c b = (s.setEnabled c b).inContext sent waiting := rfl

theorem writeEnable_inContext (cfg : Config) (c : Chan) (e : Bool) (s : State) :
    writeEnable cfg c e (s.inContext sent waiting) = (writeEnable cfg c e s).inContext sent waiting := by
  by_cases hb : c.isBase
  · simp [writeEnable, hb]
  · cases hp : c.phi with
    | none => simp [writeEnable, hb, hp]
    | some r =>
      simpa [writeEnable, hb, hp] using ite_inContext sent waiting (s.expEn = true)
        (busWrite cfg r (withEnableBit (s.image r) e)) s (busWrite_inContext sent waiting cfg r _ s)

theorem channelEnableChange_inContext (cfg : Config) (chn b : BitVec 8) (s : State) :
    channelEnableChange cfg chn b (s.inContext sent waiting)
      = (channelEnableChange cfg chn b s).inContext sent waiting := by
  simp only [channelEnableChange, State.inContext_entry, setEnabled_inContext, writeEnable_inContext]
  split
  · rfl
  · split
    · rfl
    · rfl

theorem silence_inContext (c : Chan) (s : State) :
    silence c (s.inContext sent waiting) = (silence c s).inContext sent waiting := rfl

theorem expansionOff_inContext (cfg : Config) (s : State) :
    expansionOff cfg (s.inContext sent waiting) = (expansionOff cfg s).inContext sent waiting := by
  have hoff : { s.inContext sent waiting with expEn := false }
      = State.inContext sent waiting { s with expEn := false } := rfl
  simp only [expansionOff, hoff, busWrites_inContext, silence_inContext]

theorem expansionChange_inContext (cfg : Config) (b : BitVec 8) (s : State) :
    expansionChange cfg b (s.inContext sent waiting) = (expansionChange cfg b s).inContext sent waiting := by
  unfold expansionChange
  by_cases h : boolOperand b = s.expEn
  · simp [h]
  · cases hb : boolOperand b
    · simp [hb ▸ h, expansionOff_inContext]
    · simp [hb ▸ h]; rfl

/-! #### The setters that re-encode a sounding channel -/

theorem pulseDutyChange_inContext (cfg : Config) (idx level : BitVec 8) (s : State) :
    pulseDutyChange cfg idx level (s.inContext sent waiting)
      = (pulseDutyChange cfg idx level s).inContext sent waiting := by
  unfold pulseDutyChange
  cases pulseIndexOperand idx with
  | none => rfl
  | some k =>
    exact ite_inContext sent waiting _ (busWrite cfg _ _) { s with duty := s.duty.set k.val (dutyOperand level) k.isLt }
      (busWrite_inContext sent waiting cfg _ _ _)

theorem expPulseDutyChange_inContext (cfg : Config) (idx level : BitVec 8) (s : State) :
    expPulseDutyChange cfg idx level (s.inContext sent waiting)
      = (expPulseDutyChange cfg idx level s).inContext sent waiting := by
  unfold expPulseDutyChange
  cases pulseIndexOperand idx with
  | none => rfl
  | some k =>
    exact ite_inContext sent waiting _ (busWrite cfg _ _) { s with xduty := s.xduty.set k.val (expDutyOperand level) k.isLt }
      (busWrite_inContext sent waiting cfg _ _ _)

theorem noiseModeChange_inContext (cfg : Config) (b : BitVec 8) (s : State) :
    noiseModeChange cfg b (s.inContext sent waiting) = (noiseModeChange cfg b s).inContext sent waiting := by
  have hset : { s.inContext sent waiting with noiseMode := boolOperand b }
      = State.inContext sent waiting { s with noiseMode := boolOperand b } := rfl
  simp only [noiseModeChange, hset, State.inContext_entry]
  split
  · rfl
  · exact busWrite_inContext sent waiting cfg _ _ _

/-! #### The clock scheduler -/

theorem clearVoices_inContext (s : State) :
    clearVoices (s.inContext sent waiting) = (clearVoices s).inContext sent waiting :=
  List.foldl_hom (State.inContext sent waiting) fun _ _ => rfl

theorem initialiseCore_inContext (cfg : Config) (sr : BitVec 24) (s : State) :
    initialiseCore cfg sr (s.inContext sent waiting) = (initialiseCore cfg sr s).inContext sent waiting := by
  by_cases h : sr = 0
  · simp only [initialiseCore, if_pos h]; rfl
  · have hrate : { s.inContext sent waiting with sr := sr, acc := 0, init := true }
        = State.inContext sent waiting { s with sr := sr, acc := 0, init := true } := rfl
    have hwipe (u : State) : State.clearImage { u.inContext sent waiting with stampCounter := 0 }
        = (State.clearImage { u with stampCounter := 0 }).inContext sent waiting := rfl
    simp only [initialiseCore, if_neg h, hrate, emit_inContext, clearVoices_inContext, hwipe, writeStatus_inContext]

theorem sampleStep_inContext (cfg : Config) (s : State) :
    sampleStep cfg (s.inContext sent waiting) = (sampleStep cfg s).inContext sent waiting := by
  simp [sampleStep_eq, State.inContext, State.accDen]

theorem sampleSteps_inContext (cfg : Config) (n : Nat) (s : State) :
    sampleSteps cfg n (s.inContext sent waiting) = (sampleSteps cfg n s).inContext sent waiting := by
  induction n generalizing s with
  | zero => rfl
  | succ n ih => rw [sampleSteps_succ, sampleStep_inContext, ih, sampleSteps_succ]

theorem renderBlock_inContext (cfg : Config) (n : BitVec 24) (s : State) :
    renderBlock cfg n (s.inContext sent waiting) = (renderBlock cfg n s).inContext sent waiting := by
  cases h : s.init
  · simp [renderBlock, h]; rfl
  · simp [renderBlock, h, sampleSteps_inContext]

/-! #### Every command -/

/-- A command's effect does not depend on the context, and leaves the context as it is. -/
theorem effect_inContext (cfg : Config) (i : Instr) (s : State) :
    effect cfg i (s.inContext sent waiting) = (effect cfg i s).inContext sent waiting := by
  cases i with
  | init sr => exact initialiseCore_inContext sent waiting cfg sr s
  | tick n => exact renderBlock_inContext sent waiting cfg n s
  | noteOn hint note vel => exact startNote_inContext sent waiting cfg hint note vel s
  | noteOff _ note => exact stopNote_inContext sent waiting cfg note s
  | allNotesOff => exact stopAllNotes_inContext sent waiting cfg s
  | getChannel note => exact answerChannel_inContext sent waiting note s
  | setChannelEnabled chn b => exact channelEnableChange_inContext sent waiting cfg chn b s
  | setPulseDuty idx level => exact pulseDutyChange_inContext sent waiting cfg idx level s
  | setNoiseMode b => exact noiseModeChange_inContext sent waiting cfg b s
  | setExpansionEnabled b => exact expansionChange_inContext sent waiting cfg b s
  | setExpPulseDuty idx level => exact expPulseDutyChange_inContext sent waiting cfg idx level s
  | setAllocMode m => exact allocModeChange_inContext sent waiting m s
  | setSplitPoint note => exact splitPointChange_inContext sent waiting note s
  | setChannelOrder imm => exact channelOrderChange_inContext sent waiting imm s

/-- The same of the whole command, the `fault` test included (R254). -/
theorem exec_inContext (i : Instr) {s t : State} (h : exec i s = .next t) :
    exec i (s.inContext sent waiting) = .next (t.inContext sent waiting) := by
  obtain ⟨hfault, rfl⟩ | ⟨hfault, rfl⟩ := (exec_next_iff i s t).1 h
  · exact exec_halted i hfault
  · rw [exec_running i (s := s.inContext sent waiting) hfault, effect_inContext]

end Context

/-- Settles O18: placing a state in a context commutes with every command, because the trace is only ever appended to and the
input is never read. -/
theorem commandsReadNeitherTraceNorInput : Obligations.CommandsReadNeitherTraceNorInput := by
  unfold Obligations.CommandsReadNeitherTraceNorInput
  intro i s t sent waiting h
  exact exec_inContext sent waiting i h

/-! ### The scope: the parameters -/

/-- The default address map is injective (R66): the 22 addresses, in R65's order, are pairwise different. -/
theorem defaultConfig_addrInjective : defaultConfig.addrInjective = true := by decide

/-- The defaults of R10 meet U11 and U12, constraint by constraint. -/
theorem defaultConfig_wellFormed : defaultConfig.wellFormed = true := by
  have hclock : defaultConfig.clockPositive = true := by decide
  have hadvance : defaultConfig.clockFitsAdvance = true := by decide
  have hsaw : defaultConfig.sawDivisorPositive = true := by decide
  have hshift : defaultConfig.sawShiftSmall = true := by decide
  have henv : defaultConfig.envOffBits = true := by decide
  have hhint : defaultConfig.hintMapLegal = true := by decide
  simp [Config.wellFormed, hclock, hadvance, hsaw, hshift, henv, defaultConfig_addrInjective, hhint]

/-- Settles O51: the default parameters are legal, and each arm of exec is the `fault` test around the parametric effect. -/
theorem execIsTheCoreAtLegalDefaults : Obligations.ExecIsTheCoreAtLegalDefaults := by
  unfold Obligations.ExecIsTheCoreAtLegalDefaults
  exact ⟨defaultConfig_wellFormed, exec_eq_unlessHalted⟩

end Sys2Proof.Machine

/-! ### The state: what a step runs -/

namespace Sys2Proof

/-! The fields of an assembled word, format by format (R91 to R95). -/

theorem lowByteField_append (op : BitVec 8) (hi : BitVec 16) (b : BitVec 8) :
    lowByteField (op ++ (hi ++ b : BitVec 24)) = b :=
  (BitVec.extractLsb'_append_eq_of_add_le (by decide)).trans BitVec.extractLsb'_append_eq_right

theorem highByteField_append (op hi a b : BitVec 8) :
    highByteField (op ++ (hi ++ a ++ b : BitVec 24)) = a :=
  (BitVec.extractLsb'_append_eq_of_add_le (by decide)).trans
    ((BitVec.extractLsb'_append_eq_of_le (by decide)).trans BitVec.extractLsb'_append_eq_right)

theorem hintField_append (op : BitVec 8) (hint zero : BitVec 4) (a b : BitVec 8) :
    hintField (op ++ (hint ++ zero ++ a ++ b : BitVec 24)) = hint :=
  (BitVec.extractLsb'_append_eq_of_add_le (by decide)).trans
    ((BitVec.extractLsb'_append_eq_of_le (by decide)).trans
      ((BitVec.extractLsb'_append_eq_of_le (by decide)).trans BitVec.extractLsb'_append_eq_left))

/-- Decoding an assembled word gives the command back (R103, R104): the operation code selects it, and each of its fields is
the part of the payload that the assembler put there. -/
theorem decode_encode (i : Instr) : decode (encode i) = .command i := by
  have hop : opField (encode i) = opcode i := opField_append _ _
  have himm : immField (encode i) = payload i := immField_append _ _
  have hlow {hi : BitVec 16} {b : BitVec 8} (h : payload i = hi ++ b) : lowByteField (encode i) = b := by
    rw [encode, h]; exact lowByteField_append _ _ _
  have hhigh {hi a b : BitVec 8} (h : payload i = hi ++ a ++ b) : highByteField (encode i) = a := by
    rw [encode, h]; exact highByteField_append _ _ _ _
  have hhint {hint zero : BitVec 4} {a b : BitVec 8} (h : payload i = hint ++ zero ++ a ++ b) :
      hintField (encode i) = hint := by
    rw [encode, h]; exact hintField_append _ _ _ _ _
  unfold decode
  rw [hop, himm]
  cases i with
  | init sr => rfl
  | tick n => rfl
  | noteOn hint note vel => simp [opcode, hhint rfl, hhigh rfl, hlow rfl]
  | noteOff hint note => simp [opcode, hhint rfl, hhigh rfl]
  | allNotesOff => rfl
  | getChannel note => simp [opcode, hhigh rfl]
  | setChannelEnabled chn b => simp [opcode, hhigh rfl, hlow rfl]
  | setPulseDuty idx level => simp [opcode, hhigh rfl, hlow rfl]
  | setNoiseMode b => simp [opcode, hlow rfl]
  | setExpansionEnabled b => simp [opcode, hlow rfl]
  | setExpPulseDuty idx level => simp [opcode, hhigh rfl, hlow rfl]
  | setAllocMode m => simp [opcode, hlow rfl]
  | setSplitPoint note => simp [opcode, hlow rfl]
  | setChannelOrder imm => rfl

end Sys2Proof

namespace Sys2Proof.Machine

theorem step_command {s : State} {w : Word} {rest : List PortInput} {i : Instr} (hinput : s.input = .command w :: rest)
    (hdecode : decode w = .command i) : step s = exec i { s with input := rest } := by
  unfold step runWord
  rw [hinput]
  dsimp only
  rw [hdecode]

theorem wordOfTable_toNat (w : Word) : wordOfTable 32 w.toNat = w := by
  unfold wordOfTable
  rw [Nat.mod_eq_of_lt w.isLt, BitVec.ofNat_toNat, BitVec.setWidth_eq]

/-- Settles O7: the step takes the waiting word; an assembled word decodes back to its command. -/
theorem stepRunsTheDecodedCommand : Obligations.StepRunsTheDecodedCommand := by
  unfold Obligations.StepRunsTheDecodedCommand
  refine ⟨fun s w rest i => step_command, fun s i => ?_⟩
  have hpresented : (s.withFetchWord 32 (encode i).toNat).input = .command (encode i) :: s.input :=
    congrArg (fun w => PortInput.command w :: s.input) (wordOfTable_toNat (encode i))
  exact step_command hpresented (decode_encode i)

/-! ### The state: reset -/

/-- Settles O9: each value of R35's table is the one that `State.reset` writes out. -/
theorem resetGivesEveryResetValue : Obligations.ResetGivesEveryResetValue := by
  unfold Obligations.ResetGivesEveryResetValue
  have hentry (c : Chan) : State.reset.entry c =
      { enabled := decide (c.index.val ≠ 4), note := none, vel := 0, stamp := 0 } := by
    rw [State.reset_entry]; cases c <;> rfl
  have hduties (k : Fin 2) : State.reset.duty.get k = 0 ∧ State.reset.xduty.get k = 0 := by
    fin_cases k <;> exact ⟨rfl, rfl⟩
  exact ⟨hentry, rfl, rfl, rfl, hduties, rfl, rfl, rfl, rfl, State.reset_image, rfl, rfl, rfl⟩

/-! ### The state: every step keeps the invariants

R37 is kept by each of the few updates that the commands are made of, under the condition that the update needs; a command
keeps it because it is a composition of such updates. -/

/-! #### Entries after an update -/

/-- A part of the entries that an entry update keeps. -/
theorem setEntry_keeps {α : Type} (part : Entry → α) {s : State} {c : Chan} {e : Entry}
    (h : part e = part (s.entry c)) (d : Chan) : part ((s.setEntry c e).entry d) = part (s.entry d) := by
  rw [State.entry_setEntry]
  split
  · next hd => rw [h, hd]
  · rfl

theorem silence_entry (c d : Chan) (s : State) :
    (silence c s).entry d = if d = c then releasedEntry (s.entry c) else s.entry d :=
  State.entry_setEntry s c d _

theorem stampVoice_entry (c d : Chan) (n : Note) (v : Velocity) (s : State) :
    (stampVoice c n v s).entry d =
      if d = c then { s.entry c with note := some n, vel := v, stamp := s.stampCounter + 1 } else s.entry d :=
  State.entry_setEntry _ c d _

theorem setEnabled_entry (c d : Chan) (b : Bool) (s : State) :
    (s.setEnabled c b).entry d = if d = c then { s.entry c with enabled := b } else s.entry d :=
  State.entry_setEntry s c d _

/-! #### No recipe writes STATUS -/

theorem noteOnWrites_ne_status (cfg : Config) (s : State) (n : Note) (v : Velocity) (c : Chan) :
    ∀ w ∈ noteOnWrites cfg s n v c, w.1 ≠ .status := by
  cases c <;> simp [noteOnWrites, basePulseOn, expansionOn]

theorem noteOffWrites_ne_status (cfg : Config) (s : State) (c : Chan) :
    ∀ w ∈ noteOffWrites cfg s c, w.1 ≠ .status := by
  cases c <;> simp [noteOffWrites]

/-! #### The updates that keep the invariants -/

/-- The channels outside the base group (R22). -/
theorem expansion_cases {c : Chan} (hc : c.isBase = false) : c = .expPulse1 ∨ c = .expPulse2 ∨ c = .expSawtooth := by
  revert hc; cases c <;> decide

/-- A note-on may bind the channel: not SampleChannel, and an expansion channel only while the unit is on (R219). -/
def Playable (s : State) (c : Chan) : Prop := c ≠ .sample ∧ (s.expEn = false → c.isBase = true)

section InvariantUpdates

variable {s : State}

/-- R37 (i) reads the image of STATUS, the enable flags and `init` only. -/
theorem Invariants.statusImage_of_same {t : State} (h : Invariants s) (himage : t.image .status = s.image .status)
    (henabled : ∀ c : Chan, (t.entry c).enabled = (s.entry c).enabled) (hinit : t.init = s.init) :
    t.image .status = t.statusMask ∨ (t.image .status = 0x00 ∧ t.statusMask = 0x0F ∧ t.init = false) := by
  rw [himage, statusMask_congr henabled, hinit]
  exact h.statusImage

/-- R37 does not mention the mode, the split point, the duties, the noise mode and the model's own two lists. -/
theorem Invariants.after_unmentioned (h : Invariants s) {mode : Mode} {split : Note} {duty : Vector (BitVec 2) 2}
    {xduty : Vector (BitVec 3) 2} {noiseMode : Bool} {input : List PortInput} {trace : List Event} :
    Invariants { s with mode := mode, split := split, duty := duty, xduty := xduty, noiseMode := noiseMode,
                        input := input, trace := trace } :=
  { h with }

/-- A bus write to any register but STATUS. -/
theorem Invariants.after_busWrite (h : Invariants s) (cfg : Config) {r : Reg} (hr : r ≠ .status) (v : Byte) :
    Invariants (busWrite cfg r v s) :=
  { h with statusImage := h.statusImage_of_same (by simp [hr.symm]) (fun _ => rfl) rfl }

theorem Invariants.after_busWrites (h : Invariants s) (cfg : Config) {ws : List (Reg × Byte)}
    (hws : ∀ w ∈ ws, w.1 ≠ .status) : Invariants (busWrites cfg ws s) :=
  List.foldlRecOn ws _ h fun _ hu w hw => hu.after_busWrite cfg (hws w hw) w.2

theorem Invariants.after_silence (h : Invariants s) (c : Chan) : Invariants (silence c s) := by
  have hnote (d : Chan) : ((silence c s).entry d).note = if d = c then none else (s.entry d).note := by
    rw [silence_entry]; split <;> rfl
  have hstamp : ∀ d : Chan, ((silence c s).entry d).stamp = (s.entry d).stamp := setEntry_keeps Entry.stamp rfl
  have hsounding (d : Chan) (hd : (silence c s).sounding d) : s.sounding d := by
    rw [sounding_iff, hnote] at hd; rw [sounding_iff]; split at hd <;> simp_all
  refine { h with
    sampleSilent := ?_, expansionSilent := fun he d hd => ?_, stampBound := fun d => ?_,
    stampsDiffer := fun d e hd he heq => ?_,
    statusImage := h.statusImage_of_same rfl (setEntry_keeps Entry.enabled rfl) rfl }
  · rw [hnote, h.sampleSilent, ite_self]
  · rw [hnote, h.expansionSilent he d hd, ite_self]
  · exact hstamp d ▸ h.stampBound d
  · rw [hstamp, hstamp] at heq; exact h.stampsDiffer d e (hsounding d hd) (hsounding e he) heq

/-- A voice bound to a channel that a note-on may reach: its stamp is fresh, so it differs from every other. -/
theorem Invariants.after_stampVoice (h : Invariants s) {c : Chan} (hc : Playable s c) (n : Note) (v : Velocity) :
    Invariants (stampVoice c n v s) := by
  obtain ⟨hsample, hbase⟩ := hc
  have hother {d : Chan} (hd : d ≠ c) : (stampVoice c n v s).entry d = s.entry d := by rw [stampVoice_entry, if_neg hd]
  have hfresh : ((stampVoice c n v s).entry c).stamp = s.stampCounter + 1 := by rw [stampVoice_entry, if_pos rfl]
  have hsounding {d : Chan} (hd : d ≠ c) (hs : (stampVoice c n v s).sounding d) : s.sounding d := by
    rw [sounding_iff, hother hd] at hs; rwa [sounding_iff]
  have hbelow (d : Chan) : (s.entry d).stamp ≠ s.stampCounter + 1 := by have := h.stampBound d; omega
  refine { h with
    sampleSilent := ?_, expansionSilent := fun he d hd => ?_, stampBound := fun d => ?_,
    stampsDiffer := fun d e hd he heq => ?_,
    statusImage := h.statusImage_of_same rfl (setEntry_keeps Entry.enabled rfl) rfl }
  · rw [hother hsample.symm, h.sampleSilent]
  · have hne : d ≠ c := fun hdc => by rw [hdc, hbase he] at hd; cases hd
    rw [hother hne]; exact h.expansionSilent he d hd
  · show _ ≤ s.stampCounter + 1
    by_cases hd : d = c
    · rw [hd, hfresh]
    · rw [hother hd]; exact Nat.le_succ_of_le (h.stampBound d)
  · by_cases hdc : d = c <;> by_cases hec : e = c
    · rw [hdc, hec]
    · rw [hdc, hfresh, hother hec] at heq; exact absurd heq.symm (hbelow e)
    · rw [hec, hfresh, hother hdc] at heq; exact absurd heq (hbelow d)
    · rw [hother hdc, hother hec] at heq
      exact h.stampsDiffer d e (hsounding hdc hd) (hsounding hec he) heq

/-- An order that permutes the six melodic channels. -/
theorem Invariants.after_order (h : Invariants s) {order : Vector Chan 6} (ho : order.toList.Perm Chan.melodic) :
    Invariants { s with order := order } :=
  { h with orderPermutes := ho }

/-- The expansion unit switched on, or off when its channels are silent. -/
theorem Invariants.after_expEn (h : Invariants s) (e : Bool)
    (he : e = false → ∀ c : Chan, c.isBase = false → (s.entry c).note = none) :
    Invariants { s with expEn := e } :=
  { h with expansionSilent := he }

/-- An enable flag, then an image and a trace that R37 (i) allows: no other invariant reads the flags. -/
theorem Invariants.after_setEnabled (h : Invariants s) (c : Chan) (b : Bool) (img : Vector Byte 22)
    (trace : List Event)
    (hstatus : img.get (Reg.index .status) = (s.setEnabled c b).statusMask ∨
      (img.get (Reg.index .status) = 0x00 ∧ (s.setEnabled c b).statusMask = 0x0F ∧ s.init = false)) :
    Invariants { s.setEnabled c b with img := img, trace := trace } := by
  have hnote : ∀ d : Chan, ((s.setEnabled c b).entry d).note = (s.entry d).note := setEntry_keeps Entry.note rfl
  have hstamp : ∀ d : Chan, ((s.setEnabled c b).entry d).stamp = (s.entry d).stamp := setEntry_keeps Entry.stamp rfl
  refine { h with
    sampleSilent := (hnote _).trans h.sampleSilent
    expansionSilent := fun he d hd => (hnote d).trans (h.expansionSilent he d hd)
    stampBound := fun d => hstamp d ▸ h.stampBound d
    stampsDiffer := fun d e hd he heq => ?_
    statusImage := hstatus }
  have hsounding (f : Chan) (hf : (s.setEnabled c b).sounding f) : s.sounding f := by
    rw [sounding_iff, hnote] at hf; rwa [sounding_iff]
  exact h.stampsDiffer d e (hsounding d hd) (hsounding e he) ((hstamp d).symm.trans (heq.trans (hstamp e)))

/-! #### Bind, Release and the response -/

theorem Invariants.after_respond (h : Invariants s) (c : Option Chan) : Invariants (respond c s) :=
  h.after_unmentioned

theorem Invariants.after_releaseVoice (h : Invariants s) (cfg : Config) (c : Chan) :
    Invariants (releaseVoice cfg c s) :=
  (h.after_busWrites cfg (noteOffWrites_ne_status cfg s c)).after_silence c

theorem Invariants.after_evict (h : Invariants s) (cfg : Config) (c : Chan) : Invariants (evict cfg c s) := by
  unfold evict
  split
  · exact h.after_busWrites cfg (noteOffWrites_ne_status cfg s c)
  · exact h

theorem evict_frame (cfg : Config) (c : Chan) (s : State) :
    evict cfg c s = { s with img := (evict cfg c s).img, trace := (evict cfg c s).trace } := by
  unfold evict
  split
  · exact busWrites_frame cfg _ s
  · rfl

theorem bindVoice_expEn (cfg : Config) (c : Chan) (n : Note) (v : Velocity) (s : State) :
    (bindVoice cfg c n v s).expEn = s.expEn := by
  unfold bindVoice noteOnRecipe
  rw [busWrites_frame, evict_frame]; rfl

theorem Invariants.after_bindVoice (h : Invariants s) (cfg : Config) {c : Chan} (hc : Playable s c) (n : Note)
    (v : Velocity) : Invariants (bindVoice cfg c n v s) := by
  have hplay : Playable (evict cfg c s) c := by rw [evict_frame]; exact hc
  exact ((h.after_evict cfg c).after_stampVoice hplay n v).after_busWrites cfg (noteOnWrites_ne_status cfg _ n v c)

theorem Invariants.after_bindAll (h : Invariants s) (cfg : Config) {t : List Chan} (ht : ∀ c ∈ t, Playable s c)
    (n : Note) (v : Velocity) : Invariants (bindAll cfg t n v s) := by
  induction t generalizing s with
  | nil => exact h
  | cons c t ih =>
    refine ih (h.after_bindVoice cfg (ht c List.mem_cons_self) n v) fun d hd => ?_
    unfold Playable
    rw [bindVoice_expEn]
    exact ht d (List.mem_cons_of_mem c hd)

end InvariantUpdates

/-! #### The channels a note-on may reach -/

theorem mem_melodic_iff (c : Chan) : c ∈ Chan.melodic ↔ c.isMelodic = true := by cases c <;> decide

/-- The active set selects from a permutation of the six melodic channels (R36, R201). -/
theorem active_perm {s : State} (h : Invariants s) :
    s.active.Perm (Chan.melodic.filter fun c => c.index.val < 3 || s.expEn) := h.orderPermutes.filter _

theorem mem_active_iff {s : State} (h : Invariants s) (c : Chan) :
    c ∈ s.active ↔ c.isMelodic = true ∧ (c.index.val < 3 ∨ s.expEn = true) := by
  simp [(active_perm h).mem_iff, mem_melodic_iff]

theorem firstHolding_mem {s : State} {g : List Chan} {note : Option Note} {c : Chan}
    (h : firstHolding s g note = some c) : c ∈ g := List.mem_of_find?_eq_some h

theorem freeOrStolen_mem {s : State} {g : List Chan} {c : Chan} (h : freeOrStolen s g = some c) : c ∈ g := by
  obtain hf | ⟨-, hs⟩ := Option.or_eq_some_iff.1 h
  · exact firstHolding_mem hf
  · exact List.mem_of_find?_eq_some hs

theorem playable_of_mem_active {s : State} (h : Invariants s) {c : Chan} (hc : c ∈ s.active) : Playable s c := by
  obtain ⟨hmelodic, hindex⟩ := (mem_active_iff h c).1 hc
  refine ⟨fun hs => ?_, fun he => ?_⟩
  · rw [hs] at hmelodic; cases hmelodic
  · have hlow : c.index.val < 3 := by simpa [he] using hindex
    exact decide_eq_true (by omega)

theorem playable_of_mem_pitchGroup {s : State} {c : Chan} (hc : c ∈ bassGroup s ∨ c ∈ trebleGroup s) :
    Playable s c := by
  unfold Playable
  cases he : s.expEn
  · simp [bassGroup, trebleGroup, he] at hc; rcases hc with rfl | rfl | rfl <;> decide
  · simp [bassGroup, trebleGroup, he] at hc; rcases hc with (rfl | rfl) | rfl | rfl | rfl | rfl <;> decide

/-- U12 as a fact about each hint. -/
theorem hintEntryLegal_of_hintMapLegal {cfg : Config} (h : cfg.hintMapLegal = true) (hint : BitVec 4) :
    Config.hintEntryLegal (cfg.hintMap hint) = true := by
  have := List.all_eq_true.1 h hint.toNat (List.mem_range.2 hint.isLt)
  rwa [BitVec.ofNat_toNat, BitVec.setWidth_eq] at this

theorem playable_of_mem_midiSplitTargets {cfg : Config} (hmap : cfg.hintMapLegal = true) {s : State} {hint : BitVec 4}
    {c : Chan} (hc : c ∈ midiSplitTargets cfg s hint) : Playable s c := by
  have hlegal := hintEntryLegal_of_hintMapLegal hmap hint
  unfold midiSplitTargets at hc
  split at hc
  case h_1 => cases hc
  case h_2 primary fallback hentry =>
    rw [hentry] at hlegal
    simp only [Config.hintEntryLegal, Bool.and_eq_true, bne_iff_ne, decide_eq_true_eq] at hlegal
    obtain ⟨hprimary, hfallback⟩ := hlegal
    rw [List.mem_singleton.1 hc]
    unfold Playable
    split
    · next hon => exact ⟨hprimary, fun he => by simpa [he] using hon⟩
    · refine ⟨fun hs => ?_, fun _ => decide_eq_true (Nat.le_succ_of_le hfallback)⟩
      rw [hs] at hfallback; exact absurd hfallback (by decide)

/-- Whatever the mode, the targets of a note-on are channels it may reach (R219). -/
theorem playable_of_mem_targets {cfg : Config} (hmap : cfg.hintMapLegal = true) {s : State} (h : Invariants s)
    {hint : BitVec 4} {n : Note} {c : Chan} (hc : c ∈ targets cfg s hint n) : Playable s c := by
  unfold targets at hc
  cases hmode : s.mode <;> rw [hmode] at hc
  case fixedMono => exact playable_of_mem_active h (List.mem_of_mem_head? (Option.mem_toList.1 hc))
  case roundRobin =>
    obtain hf | ⟨-, hf⟩ := Option.or_eq_some_iff.1 (Option.mem_toList.1 hc)
    · exact playable_of_mem_active h (firstHolding_mem hf)
    · exact playable_of_mem_active h (freeOrStolen_mem hf)
  case pitchSplit =>
    have hg := freeOrStolen_mem (Option.mem_toList.1 hc)
    split at hg
    · exact playable_of_mem_pitchGroup (.inl hg)
    · exact playable_of_mem_pitchGroup (.inr hg)
  case midiChannelSplit => exact playable_of_mem_midiSplitTargets hmap hc
  case unison => exact playable_of_mem_active h hc

/-! #### Every command -/

section CommandsKeepInvariants

variable {s : State}

theorem Invariants.after_startNote (h : Invariants s) {cfg : Config} (hmap : cfg.hintMapLegal = true) (hint : BitVec 4)
    (note vel : BitVec 8) : Invariants (startNote cfg hint note vel s) :=
  (h.after_bindAll cfg (fun _ hc => playable_of_mem_targets hmap h hc) _ _).after_respond _

theorem Invariants.after_stopNote (h : Invariants s) (cfg : Config) (note : BitVec 8) :
    Invariants (stopNote cfg note s) :=
  List.foldlRecOn Chan.all _ h fun u hu c _ => by
    unfold releaseIfHolding
    split
    · exact hu.after_releaseVoice cfg c
    · exact hu

theorem Invariants.after_stopAllNotes (h : Invariants s) (cfg : Config) : Invariants (stopAllNotes cfg s) :=
  List.foldlRecOn Chan.all _ h fun u hu c _ => by
    unfold releaseIfSounding
    split
    · exact hu.after_releaseVoice cfg c
    · exact hu

theorem Invariants.after_allocModeChange (h : Invariants s) (m : BitVec 8) : Invariants (allocModeChange m s) := by
  unfold allocModeChange
  split
  · exact h
  · exact h.after_unmentioned

/-- Six different melodic channels are a permutation of the six (R98). -/
theorem orderOperand_permutes {imm : BitVec 24} {order : Vector Chan 6} (h : orderOperand imm = some order) :
    order.toList.Perm Chan.melodic := by
  obtain ⟨hentries, hnodup⟩ := (orderOperand_eq_some imm order).1 h
  have hsub : order.toList ⊆ Chan.melodic := fun c hc => by
    obtain ⟨j, hj, rfl⟩ := Vector.mem_iff_getElem.1 (Vector.mem_toList_iff.1 hc)
    exact (mem_melodic_iff _).2 ((melodicEntry_eq_some _ _).1 (hentries j hj)).2
  exact (hnodup.subperm hsub).perm_of_length_le (by simp [Chan.melodic])

theorem Invariants.after_channelOrderChange (h : Invariants s) (imm : BitVec 24) :
    Invariants (channelOrderChange imm s) := by
  unfold channelOrderChange
  split
  · exact h
  · next order horder => exact h.after_order (orderOperand_permutes horder)

theorem phi_ne_status {c : Chan} {r : Reg} (h : c.phi = some r) : r ≠ .status := by
  rintro rfl; cases c <;> cases h

theorem statusMask_setEnabled_of_expansion {c : Chan} (hc : c.isBase = false) (b : Bool) (s : State) :
    (s.setEnabled c b).statusMask = s.statusMask := by
  rcases expansion_cases hc with rfl | rfl | rfl <;> simp [State.statusMask, State.isEnabled, setEnabled_entry]

theorem Invariants.after_channelEnableChange (h : Invariants s) (cfg : Config) (chn b : BitVec 8) :
    Invariants (channelEnableChange cfg chn b s) := by
  unfold channelEnableChange
  dsimp only
  split
  · exact h
  · next c _ =>
    split
    · exact h
    · unfold writeEnable
      split
      · refine h.after_setEnabled c _ _ _ (.inl ?_)
        exact (State.image_setImage _ .status .status _).trans (if_pos rfl)
      · next hbase =>
        have hflag : Invariants (s.setEnabled c (boolOperand b)) :=
          h.after_setEnabled c _ s.img s.trace (by
            rw [statusMask_setEnabled_of_expansion (by simpa using hbase)]; exact h.statusImage)
        split
        · split
          · next r hr => exact hflag.after_busWrite cfg (phi_ne_status hr) _
          · exact hflag
        · exact hflag

theorem Invariants.after_expansionChange (h : Invariants s) (cfg : Config) (b : BitVec 8) :
    Invariants (expansionChange cfg b s) := by
  unfold expansionChange
  dsimp only
  split
  · exact h
  · split
    · exact h.after_expEn true (fun he => by cases he)
    · have hwrites := h.after_busWrites cfg (ws := [(.x1Phi, cfg.expOff), (.x2Phi, cfg.expOff), (.sawPhi, cfg.expOff)])
        (by simp)
      refine (((hwrites.after_silence .expPulse1).after_silence .expPulse2).after_silence .expSawtooth).after_expEn false
        fun _ c hc => ?_
      rcases expansion_cases hc with rfl | rfl | rfl <;> simp [silence_entry, releasedEntry]

theorem Invariants.after_initialiseCore (h : Invariants s) (hrun : s.fault = false) (cfg : Config) (sr : BitVec 24) :
    Invariants (initialiseCore cfg sr s) := by
  by_cases hsr : sr = 0
  · subst hsr
    rw [initialiseCore_zero]
    exact { h with
      clockRunning := fun hi => by cases hi
      clockStopped := fun _ => rfl
      haltedUninitialised := fun _ => rfl
      statusImage := h.statusImage.imp_right fun ⟨himage, hmask, _⟩ => ⟨himage, hmask, rfl⟩ }
  · obtain ⟨table, image, heq, htable, himage⟩ := initialiseCore_frame cfg sr s hsr
    have hentry (c : Chan) : (initialiseCore cfg sr s).entry c =
        { enabled := (s.entry c).enabled, note := none, vel := 0, stamp := 0 } := by rw [heq]; exact htable c
    have hsilent (c : Chan) : ((initialiseCore cfg sr s).entry c).note = none := by rw [hentry]
    have hmask : (initialiseCore cfg sr s).statusMask = s.statusMask := statusMask_congr fun c => by rw [hentry]
    have hpos : sr.toNat ≠ 0 := fun hz => hsr (BitVec.eq_of_toNat_eq hz)
    refine {
      sampleSilent := hsilent _
      expansionSilent := fun _ c _ => hsilent c
      orderPermutes := ?_
      stampBound := fun c => by rw [hentry]; exact Nat.zero_le _
      stampsDiffer := fun c _ hc => absurd (hsilent c) ((sounding_iff _ c).1 hc)
      clockRunning := fun _ => ?_
      clockStopped := fun _ => ?_
      haltedUninitialised := fun hf => ?_
      statusImage := .inl ?_ }
    · rw [heq]; exact h.orderPermutes
    · rw [heq]; exact ⟨hsr, by show 0 < 10 * sr.toNat; omega⟩
    · rw [heq]
    · rw [heq] at hf; exact absurd hf (by simp [hrun])
    · rw [hmask, heq]; exact himage .status

theorem Invariants.after_renderBlock (h : Invariants s) {cfg : Config} (hden : cfg.mclkDen = 10) (n : BitVec 24) :
    Invariants (renderBlock cfg n s) := by
  have hrate : s.accDen cfg = 10 * s.sr.toNat := by rw [State.accDen, hden]
  unfold renderBlock
  split
  · next hinit =>
    obtain ⟨hsr, hacc⟩ := h.clockRunning hinit
    rw [sampleSteps_frame, sampleSteps_acc cfg _ s (hrate ▸ hacc), hrate]
    exact { h with
      clockRunning := fun _ => ⟨hsr, Nat.mod_lt _ (by omega)⟩
      clockStopped := fun hstop => absurd hinit (by rw [show s.init = false from hstop]; decide) }
  · next hinit =>
    exact { h with haltedUninitialised := fun _ => by simpa using hinit }

theorem Invariants.after_pulseDutyChange (h : Invariants s) (cfg : Config) (idx level : BitVec 8) :
    Invariants (pulseDutyChange cfg idx level s) := by
  obtain ⟨duty, ws, heq, -, hws⟩ := pulseDutyChange_shape cfg idx level s
  rw [heq]
  exact h.after_unmentioned.after_busWrites cfg hws

theorem Invariants.after_expPulseDutyChange (h : Invariants s) (cfg : Config) (idx level : BitVec 8) :
    Invariants (expPulseDutyChange cfg idx level s) := by
  obtain ⟨xduty, ws, heq, -, hws⟩ := expPulseDutyChange_shape cfg idx level s
  rw [heq]
  exact h.after_unmentioned.after_busWrites cfg hws

theorem Invariants.after_noiseModeChange (h : Invariants s) (cfg : Config) (b : BitVec 8) :
    Invariants (noiseModeChange cfg b s) := by
  obtain ⟨ws, heq, -, hws⟩ := noiseModeChange_shape cfg b s
  rw [heq]
  exact h.after_unmentioned.after_busWrites cfg hws

/-- A command of a running core keeps the invariants. -/
theorem Invariants.after_effect (h : Invariants s) (hrun : s.fault = false) {cfg : Config} (hden : cfg.mclkDen = 10)
    (hmap : cfg.hintMapLegal = true) (i : Instr) : Invariants (effect cfg i s) := by
  cases i with
  | init sr => exact h.after_initialiseCore hrun cfg sr
  | tick n => exact h.after_renderBlock hden n
  | noteOn hint note vel => exact h.after_startNote hmap hint note vel
  | noteOff _ note => exact h.after_stopNote cfg note
  | allNotesOff => exact h.after_stopAllNotes cfg
  | getChannel note => exact h.after_respond _
  | setChannelEnabled chn b => exact h.after_channelEnableChange cfg chn b
  | setPulseDuty idx level => exact h.after_pulseDutyChange cfg idx level
  | setNoiseMode b => exact h.after_noiseModeChange cfg b
  | setExpansionEnabled b => exact h.after_expansionChange cfg b
  | setExpPulseDuty idx level => exact h.after_expPulseDutyChange cfg idx level
  | setAllocMode m => exact h.after_allocModeChange m
  | setSplitPoint note => exact h.after_unmentioned
  | setChannelOrder imm => exact h.after_channelOrderChange imm

theorem Invariants.after_exec (h : Invariants s) {i : Instr} {t : State} (hexec : exec i s = .next t) :
    Invariants t := by
  obtain ⟨-, rfl⟩ | ⟨hrun, rfl⟩ := (exec_next_iff i s t).1 hexec
  · exact h
  · exact h.after_effect hrun rfl (by decide) i

end CommandsKeepInvariants

/-- Settles O14: invariant by invariant, from the reset values of R35. -/
theorem resetMeetsTheInvariants : Obligations.ResetMeetsTheInvariants := by
  unfold Obligations.ResetMeetsTheInvariants
  have hnote (c : Chan) : (State.reset.entry c).note = none := by rw [State.reset_entry]; rfl
  have hstamp (c : Chan) : (State.reset.entry c).stamp = 0 := by rw [State.reset_entry]; rfl
  exact {
    sampleSilent := hnote _
    expansionSilent := fun _ c _ => hnote c
    orderPermutes := List.Perm.refl _
    stampBound := fun c => (hstamp c).le
    stampsDiffer := fun c _ hc => absurd (hnote c) ((sounding_iff _ c).1 hc)
    clockRunning := fun hi => by cases hi
    clockStopped := fun _ => rfl
    haltedUninitialised := fun _ => rfl
    statusImage := .inr ⟨State.reset_image _, by decide, rfl⟩ }

/-- Settles O15: each of the four things a step can do keeps the invariants; for a command, each update it is made of. -/
theorem stepKeepsTheInvariants : Obligations.StepKeepsTheInvariants := by
  unfold Obligations.StepKeepsTheInvariants
  intro s t h hstep
  have htaken (rest : List PortInput) : Invariants { s with input := rest } := h.after_unmentioned
  obtain ⟨-, rfl⟩ | ⟨_, rest, i, -, -, hexec⟩ | ⟨_, rest, _, -, -, rfl⟩ | ⟨rest, -, rfl⟩ := step_cases hstep
  · exact h
  · exact (htaken rest).after_exec hexec
  · exact htaken rest
  · exact Invariants.after_unmentioned resetMeetsTheInvariants

/-! ### The state: the active melodic set -/

/-- Settles O22: the active set has the members, and as many, as its filter leaves of the six melodic channels. -/
theorem activeSetHasThreeOrSixMembers : Obligations.ActiveSetHasThreeOrSixMembers := by
  unfold Obligations.ActiveSetHasThreeOrSixMembers
  intro s h
  have hperm := active_perm h
  refine ⟨List.filter_sublist, hperm.nodup_iff.2 (List.Nodup.filter _ (by decide)), fun he => ?_, fun he => ?_⟩
  · rw [he] at hperm
    refine ⟨hperm.length_eq, fun c => hperm.mem_iff.trans ?_⟩
    cases c <;> decide
  · rw [he] at hperm
    refine ⟨hperm.length_eq, fun c => hperm.mem_iff.trans ?_⟩
    cases c <;> decide

/-! ### The state: the register image holds the last byte written

The image and the trace are changed by `busWrite` and by INIT's clearing together, and by nothing else; so along any
composition of updates the image is what the events sent on the way leave in it (R30, R64). -/

/-- The default addresses of two registers differ (R66). -/
theorem addr_eq_defaultAddr_iff (r q : Reg) : defaultConfig.addr r = defaultAddr q ↔ q = r := by
  refine ⟨fun h => ?_, fun h => h ▸ rfl⟩
  have hrow := List.all_eq_true.1 (List.all_eq_true.1 defaultConfig_addrInjective q (Reg.mem_all q)) r (Reg.mem_all r)
  simpa [h, show defaultConfig.addr q = defaultAddr q from rfl] using hrow

theorem replayImage_append (es fs : List Event) (r : Reg) (old : Byte) :
    replayImage (es ++ fs) r old = replayImage fs r (replayImage es r old) := List.foldl_append

/-- `t` has sent more than `s`, and its image is what the events sent since leave in the image of `s`. -/
def ImageFollows (s t : State) : Prop :=
  ∃ evs, t.trace = s.trace ++ evs ∧ ∀ r : Reg, t.image r = replayImage evs r (s.image r)

section ImageFollows

variable {s t u : State}

theorem ImageFollows.refl (s : State) : ImageFollows s s := ⟨[], by simp, fun _ => rfl⟩

/-- More events, with the image changed as they say. -/
theorem ImageFollows.after_events (h : ImageFollows s t) (fs : List Event) (htrace : u.trace = t.trace ++ fs)
    (himage : ∀ r : Reg, u.image r = replayImage fs r (t.image r)) : ImageFollows s u := by
  obtain ⟨es, htrace₀, himage₀⟩ := h
  refine ⟨es ++ fs, by rw [htrace, htrace₀, List.append_assoc], fun r => ?_⟩
  rw [himage, himage₀, replayImage_append]

/-- An update that touches neither the image nor the trace. -/
theorem ImageFollows.after_other (h : ImageFollows s t) (htrace : u.trace = t.trace) (himg : u.img = t.img) :
    ImageFollows s u := by
  obtain ⟨evs, htrace₀, himage₀⟩ := h
  exact ⟨evs, htrace.trans htrace₀, fun r => (congrArg (·.get r.index) himg).trans (himage₀ r)⟩

/-- `BusWrite` (R64); two registers share no address (R66). -/
theorem ImageFollows.after_busWrite (h : ImageFollows s t) (r : Reg) (v : Byte) :
    ImageFollows s (busWrite defaultConfig r v t) :=
  h.after_events _ (busWrite_trace _ _ _ _) fun q => by
    simp [replayImage, addr_eq_defaultAddr_iff]

theorem ImageFollows.after_busWrites (h : ImageFollows s t) (ws : List (Reg × Byte)) :
    ImageFollows s (busWrites defaultConfig ws t) :=
  List.foldlRecOn ws _ h fun _ hu w _ => hu.after_busWrite w.1 w.2

theorem ImageFollows.after_respond (h : ImageFollows s t) (c : Option Chan) : ImageFollows s (respond c t) :=
  h.after_events _ rfl fun _ => rfl

/-! #### The commands -/

theorem ImageFollows.after_evict (h : ImageFollows s t) (c : Chan) : ImageFollows s (evict defaultConfig c t) := by
  unfold evict
  split
  · exact h.after_busWrites _
  · exact h

theorem ImageFollows.after_bindVoice (h : ImageFollows s t) (c : Chan) (n : Note) (v : Velocity) :
    ImageFollows s (bindVoice defaultConfig c n v t) :=
  have hstamped : ImageFollows s (stampVoice c n v (evict defaultConfig c t)) := (h.after_evict c).after_other rfl rfl
  hstamped.after_busWrites _

theorem ImageFollows.after_startNote (h : ImageFollows s t) (hint : BitVec 4) (note vel : BitVec 8) :
    ImageFollows s (startNote defaultConfig hint note vel t) :=
  (List.foldlRecOn _ _ h fun _ hu c _ => hu.after_bindVoice c _ _).after_respond _

theorem ImageFollows.after_releaseVoice (h : ImageFollows s t) (c : Chan) :
    ImageFollows s (releaseVoice defaultConfig c t) :=
  (h.after_busWrites _).after_other rfl rfl

theorem ImageFollows.after_stopNote (h : ImageFollows s t) (note : BitVec 8) :
    ImageFollows s (stopNote defaultConfig note t) :=
  List.foldlRecOn Chan.all _ h fun u hu c _ => by
    unfold releaseIfHolding
    split
    · exact hu.after_releaseVoice c
    · exact hu

theorem ImageFollows.after_stopAllNotes (h : ImageFollows s t) : ImageFollows s (stopAllNotes defaultConfig t) :=
  List.foldlRecOn Chan.all _ h fun u hu c _ => by
    unfold releaseIfSounding
    split
    · exact hu.after_releaseVoice c
    · exact hu

/-- INIT clears the image where it sends `ResetState`, and then writes STATUS (R122). -/
theorem ImageFollows.after_initialiseCore (h : ImageFollows s t) (sr : BitVec 24) :
    ImageFollows s (initialiseCore defaultConfig sr t) := by
  by_cases hsr : sr = 0
  · subst hsr; exact h.after_other rfl rfl
  · obtain ⟨table, image, heq, -, himage⟩ := initialiseCore_frame defaultConfig sr t hsr
    rw [heq]
    refine h.after_events [_, _, _] rfl fun r => (himage r).trans ?_
    simp [replayImage, addr_eq_defaultAddr_iff]

theorem ImageFollows.after_sampleStep (h : ImageFollows s t) : ImageFollows s (sampleStep defaultConfig t) := by
  obtain ⟨rest, pulses, heq⟩ := sampleStep_shape defaultConfig t
  rw [heq]
  refine h.after_events _ rfl fun r => ?_
  split
  · rfl
  · rfl

theorem ImageFollows.after_sampleSteps (h : ImageFollows s t) (n : Nat) :
    ImageFollows s (sampleSteps defaultConfig n t) := by
  induction n generalizing t with
  | zero => exact h
  | succ n ih => rw [sampleSteps_succ]; exact ih h.after_sampleStep

theorem ImageFollows.after_renderBlock (h : ImageFollows s t) (n : BitVec 24) :
    ImageFollows s (renderBlock defaultConfig n t) := by
  unfold renderBlock
  split
  · exact h.after_sampleSteps _
  · exact h.after_other rfl rfl

theorem ImageFollows.after_allocModeChange (h : ImageFollows s t) (m : BitVec 8) :
    ImageFollows s (allocModeChange m t) := by
  unfold allocModeChange
  split
  · exact h
  · exact h.after_other rfl rfl

theorem ImageFollows.after_channelOrderChange (h : ImageFollows s t) (imm : BitVec 24) :
    ImageFollows s (channelOrderChange imm t) := by
  unfold channelOrderChange
  split
  · exact h
  · exact h.after_other rfl rfl

/-- The setters write what their shape says, after a change that the image does not show. -/
theorem ImageFollows.after_change (h : ImageFollows s t) {ws : List (Reg × Byte)} {t' : State}
    (heq : u = busWrites defaultConfig ws t') (htrace : t'.trace = t.trace) (himg : t'.img = t.img) :
    ImageFollows s u :=
  heq ▸ (h.after_other htrace himg).after_busWrites ws

theorem ImageFollows.after_expansionChange (h : ImageFollows s t) (b : BitVec 8) :
    ImageFollows s (expansionChange defaultConfig b t) := by
  obtain ⟨table, ws, heq, -⟩ := expansionChange_shape defaultConfig b t
  rw [heq]
  exact (h.after_busWrites ws).after_other rfl rfl

/-- Every command changes the image only together with the bus. -/
theorem imageFollows_effect (i : Instr) (s : State) : ImageFollows s (effect defaultConfig i s) := by
  have h := ImageFollows.refl s
  cases i with
  | init sr => exact h.after_initialiseCore sr
  | tick n => exact h.after_renderBlock n
  | noteOn hint note vel => exact h.after_startNote hint note vel
  | noteOff _ note => exact h.after_stopNote note
  | allNotesOff => exact h.after_stopAllNotes
  | getChannel note => exact h.after_respond _
  | setChannelEnabled chn b =>
    obtain ⟨table, ws, heq, -⟩ := channelEnableChange_shape defaultConfig chn b s
    exact h.after_change heq rfl rfl
  | setPulseDuty idx level =>
    obtain ⟨duty, ws, heq, -⟩ := pulseDutyChange_shape defaultConfig idx level s
    exact h.after_change heq rfl rfl
  | setNoiseMode b =>
    obtain ⟨ws, heq, -⟩ := noiseModeChange_shape defaultConfig b s
    exact h.after_change heq rfl rfl
  | setExpansionEnabled b => exact h.after_expansionChange b
  | setExpPulseDuty idx level =>
    obtain ⟨xduty, ws, heq, -⟩ := expPulseDutyChange_shape defaultConfig idx level s
    exact h.after_change heq rfl rfl
  | setAllocMode m => exact h.after_allocModeChange m
  | setSplitPoint note => exact h.after_other rfl rfl
  | setChannelOrder imm => exact h.after_channelOrderChange imm

end ImageFollows

/-- Settles O17: the image follows the trace through every update that a command is made of; a halted core sends nothing. -/
theorem imageIsTheLastByteWritten : Obligations.ImageIsTheLastByteWritten := by
  unfold Obligations.ImageIsTheLastByteWritten
  intro i s t h
  obtain ⟨-, rfl⟩ | ⟨-, rfl⟩ := (exec_next_iff i s t).1 h
  · exact ImageFollows.refl t
  · exact imageFollows_effect i s

/-! ### The state: which command writes which state

One frame per command: the effect as the old state with the fields it may change replaced, and what it keeps of the
entries (R38). -/

theorem initialiseCore_keeps_enabled (cfg : Config) (sr : BitVec 24) (s : State) :
    ∃ ch sr' acc img sc init trace,
      initialiseCore cfg sr s = { s with ch := ch, sr := sr', acc := acc, img := img, stampCounter := sc, init := init,
                                         trace := trace } ∧
      ∀ c : Chan, (ch.get c.index).enabled = (s.entry c).enabled := by
  by_cases hsr : sr = 0
  · subst hsr; exact ⟨_, _, _, _, _, _, _, initialiseCore_zero cfg s, fun _ => rfl⟩
  · obtain ⟨table, image, heq, htable, -⟩ := initialiseCore_frame cfg sr s hsr
    exact ⟨_, _, _, _, _, _, _, heq, fun c => by rw [htable]⟩

theorem renderBlock_frame (cfg : Config) (n : BitVec 24) (s : State) :
    ∃ acc fault trace, renderBlock cfg n s = { s with acc := acc, fault := fault, trace := trace } := by
  unfold renderBlock
  split
  · exact ⟨_, _, _, sampleSteps_frame cfg _ s⟩
  · exact ⟨_, _, _, rfl⟩

theorem bindAll_keeps_enabled (t : List Chan) (n : Note) (v : Velocity) (s : State) (c : Chan) :
    ((bindAll defaultConfig t n v s).entry c).enabled = (s.entry c).enabled :=
  List.foldlRecOn (motive := fun u : State => (u.entry c).enabled = (s.entry c).enabled) t _ rfl fun u hu d _ => by
    rw [bindVoice_entry]
    split
    · next hd => rw [← hu, hd]
    · exact hu

theorem startNote_frame (hint : BitVec 4) (note vel : BitVec 8) (s : State) :
    ∃ ch img sc trace,
      startNote defaultConfig hint note vel s = { s with ch := ch, img := img, stampCounter := sc, trace := trace } ∧
      ∀ c : Chan, (ch.get c.index).enabled = (s.entry c).enabled :=
  ⟨_, _, _, _, (keepsSettings_bindAll _ _ _ s).trans (keepsSettings_emit _ _), bindAll_keeps_enabled _ _ _ s⟩

theorem ReleasedExactly.frame {p : Chan → Bool} {s t : State} (h : ReleasedExactly p s t) :
    ∃ ch img trace, t = { s with ch := ch, img := img, trace := trace } ∧
      ∀ c : Chan, ∃ note, ch.get c.index = { s.entry c with note := note } := by
  obtain ⟨hentry, hcounter, -, hkeeps⟩ := h
  refine ⟨t.ch, t.img, t.trace, hcounter ▸ hkeeps, fun c => ?_⟩
  rw [State.ch_get, hentry]
  split
  · exact ⟨none, rfl⟩
  · exact ⟨_, rfl⟩

theorem channelEnableChange_frame (cfg : Config) (chn b : BitVec 8) (s : State) :
    ∃ ch img trace, channelEnableChange cfg chn b s = { s with ch := ch, img := img, trace := trace } ∧
      ∀ c : Chan, ∃ enabled, ch.get c.index = { s.entry c with enabled := enabled } := by
  obtain ⟨table, ws, heq, -, htable⟩ := channelEnableChange_shape cfg chn b s
  exact ⟨table, _, _, heq.trans (busWrites_frame cfg ws _), htable⟩

theorem expansionChange_frame (cfg : Config) (b : BitVec 8) (s : State) :
    ∃ ch expEn img trace, expansionChange cfg b s = { s with ch := ch, expEn := expEn, img := img, trace := trace } ∧
      ∀ c : Chan, ∃ note, ch.get c.index = { s.entry c with note := note } := by
  obtain ⟨table, ws, heq, -, -, htable⟩ := expansionChange_shape cfg b s
  refine ⟨table, _, _, _, heq.trans (by rw [busWrites_frame]), fun c => ?_⟩
  obtain h | h := htable c
  · exact ⟨_, h⟩
  · exact ⟨_, h⟩

theorem pulseDutyChange_frame (cfg : Config) (idx level : BitVec 8) (s : State) :
    ∃ duty img trace, pulseDutyChange cfg idx level s = { s with duty := duty, img := img, trace := trace } := by
  obtain ⟨duty, ws, heq, -⟩ := pulseDutyChange_shape cfg idx level s
  exact ⟨duty, _, _, heq.trans (busWrites_frame cfg ws _)⟩

theorem expPulseDutyChange_frame (cfg : Config) (idx level : BitVec 8) (s : State) :
    ∃ xduty img trace, expPulseDutyChange cfg idx level s = { s with xduty := xduty, img := img, trace := trace } := by
  obtain ⟨xduty, ws, heq, -⟩ := expPulseDutyChange_shape cfg idx level s
  exact ⟨xduty, _, _, heq.trans (busWrites_frame cfg ws _)⟩

theorem noiseModeChange_frame (cfg : Config) (b : BitVec 8) (s : State) :
    ∃ noiseMode img trace, noiseModeChange cfg b s = { s with noiseMode := noiseMode, img := img, trace := trace } := by
  obtain ⟨ws, heq, -⟩ := noiseModeChange_shape cfg b s
  exact ⟨_, _, _, heq.trans (busWrites_frame cfg ws _)⟩

theorem allocModeChange_frame (m : BitVec 8) (s : State) :
    ∃ mode, allocModeChange m s = { s with mode := mode } := by
  unfold allocModeChange
  split
  · exact ⟨_, rfl⟩
  · exact ⟨_, rfl⟩

theorem channelOrderChange_frame (imm : BitVec 24) (s : State) :
    ∃ order, channelOrderChange imm s = { s with order := order } := by
  unfold channelOrderChange
  split
  · exact ⟨_, rfl⟩
  · exact ⟨_, rfl⟩

/-- Settles O20: whatever changes is a field that the frame of the command names; a halted core changes nothing. -/
theorem commandsWriteOnlyTheirState : Obligations.CommandsWriteOnlyTheirState := by
  unfold Obligations.CommandsWriteOnlyTheirState
  intro i s t h
  obtain ⟨-, rfl⟩ | ⟨-, rfl⟩ := (exec_next_iff i s t).1 h
  · simp
  cases i with
  | init sr =>
    obtain ⟨_, _, _, _, _, _, _, heq, henabled⟩ := initialiseCore_keeps_enabled defaultConfig sr s
    simp [effect, heq, henabled]
  | tick n =>
    obtain ⟨_, _, _, heq⟩ := renderBlock_frame defaultConfig n s
    simp [effect, heq]
  | noteOn hint note vel =>
    obtain ⟨_, _, _, _, heq, henabled⟩ := startNote_frame hint note vel s
    simp [effect, heq, henabled]
  | noteOff hint note =>
    obtain ⟨_, _, _, heq, hentry⟩ := (stopNote_released note s).frame
    choose note' hentry using hentry
    simp [effect, heq, hentry]
  | allNotesOff =>
    obtain ⟨_, _, _, heq, hentry⟩ := (stopAllNotes_released s).frame
    choose note' hentry using hentry
    simp [effect, heq, hentry]
  | getChannel note => simp [effect, answerChannel, respond]
  | setChannelEnabled chn b =>
    obtain ⟨_, _, _, heq, hentry⟩ := channelEnableChange_frame defaultConfig chn b s
    choose enabled hentry using hentry
    simp [effect, heq, hentry]
  | setPulseDuty idx level =>
    obtain ⟨_, _, _, heq⟩ := pulseDutyChange_frame defaultConfig idx level s
    simp [effect, heq]
  | setNoiseMode b =>
    obtain ⟨_, _, _, heq⟩ := noiseModeChange_frame defaultConfig b s
    simp [effect, heq]
  | setExpansionEnabled b =>
    obtain ⟨_, _, _, _, heq, hentry⟩ := expansionChange_frame defaultConfig b s
    choose note' hentry using hentry
    simp [effect, heq, hentry]
  | setExpPulseDuty idx level =>
    obtain ⟨_, _, _, heq⟩ := expPulseDutyChange_frame defaultConfig idx level s
    simp [effect, heq]
  | setAllocMode m =>
    obtain ⟨_, heq⟩ := allocModeChange_frame m s
    simp [effect, heq]
  | setSplitPoint note => simp [effect, splitPointChange]
  | setChannelOrder imm =>
    obtain ⟨_, heq⟩ := channelOrderChange_frame imm s
    simp [effect, heq]

end Sys2Proof.Machine

/-! ### Memory: the address map

Renaming the bus addresses of a trace commutes with every operation of the machine, when the operation on the renamed side
works with the renamed address map: no operation reads the trace, and `BusWrite` alone looks at the map (R62, R64, R66). -/

namespace Sys2Proof

/-- The parameters with every address of the map renamed. -/
def Config.readdressed (f : Addr → Addr) (cfg : Config) : Config := { cfg with addr := fun r => f (cfg.addr r) }

end Sys2Proof

namespace Sys2Proof.Machine

section Renaming

variable (f : Addr → Addr)

/-- The state with every bus address on the trace renamed. -/
def State.renamed (s : State) : State := { s with trace := s.trace.map (Event.renamed f) }

/-! #### Reading a renamed state -/

@[simp] theorem State.renamed_entry (s : State) (c : Chan) : (s.renamed f).entry c = s.entry c := rfl

@[simp] theorem State.renamed_image (s : State) (r : Reg) : (s.renamed f).image r = s.image r := rfl

@[simp] theorem State.renamed_sounding (s : State) (c : Chan) : (s.renamed f).sounding c = s.sounding c := rfl

@[simp] theorem State.renamed_expEn (s : State) : (s.renamed f).expEn = s.expEn := rfl

@[simp] theorem State.renamed_init (s : State) : (s.renamed f).init = s.init := rfl

@[simp] theorem firstHolding_renamed (s : State) (g : List Chan) (note : Option Note) :
    firstHolding (s.renamed f) g note = firstHolding s g note := rfl

/-- The bytes of a recipe do not depend on the address map. -/
@[simp] theorem noteOnWrites_renamed (cfg : Config) (s : State) (n : Note) (v : Velocity) (c : Chan) :
    noteOnWrites (cfg.readdressed f) (s.renamed f) n v c = noteOnWrites cfg s n v c := by
  cases c <;> rfl

@[simp] theorem noteOffWrites_renamed (cfg : Config) (s : State) (c : Chan) :
    noteOffWrites (cfg.readdressed f) (s.renamed f) c = noteOffWrites cfg s c := by
  cases c <;> rfl

@[simp] theorem targets_renamed (cfg : Config) (s : State) (hint : BitVec 4) (n : Note) :
    targets (cfg.readdressed f) (s.renamed f) hint n = targets cfg s hint n := rfl

/-! #### The shared operations on a renamed state -/

@[simp] theorem setEntry_renamed (s : State) (c : Chan) (e : Entry) :
    (s.renamed f).setEntry c e = (s.setEntry c e).renamed f := rfl

theorem emit_renamed (e : Event) (s : State) : emit (e.renamed f) (s.renamed f) = (emit e s).renamed f := by
  simp [emit, State.renamed]

@[simp] theorem respond_renamed (c : Option Chan) (s : State) :
    respond c (s.renamed f) = (respond c s).renamed f :=
  emit_renamed f (.respond (responseValue c)) s

/-- The one operation that looks at the address map sends the renamed address. -/
@[simp] theorem busWrite_renamed (cfg : Config) (r : Reg) (v : Byte) (s : State) :
    busWrite (cfg.readdressed f) r v (s.renamed f) = (busWrite cfg r v s).renamed f :=
  emit_renamed f (.memWrite (cfg.addr r) v) (s.setImage r v)

@[simp] theorem busWrites_renamed (cfg : Config) (ws : List (Reg × Byte)) (s : State) :
    busWrites (cfg.readdressed f) ws (s.renamed f) = (busWrites cfg ws s).renamed f :=
  List.foldl_hom (State.renamed f) fun s w => busWrite_renamed f cfg w.1 w.2 s

@[simp] theorem writeStatus_renamed (cfg : Config) (s : State) :
    writeStatus (cfg.readdressed f) (s.renamed f) = (writeStatus cfg s).renamed f :=
  busWrite_renamed f cfg .status s.statusMask s

/-! #### The voice allocator -/

@[simp] theorem noteOffRecipe_renamed (cfg : Config) (c : Chan) (s : State) :
    noteOffRecipe (cfg.readdressed f) c (s.renamed f) = (noteOffRecipe cfg c s).renamed f := by
  simp [noteOffRecipe]

@[simp] theorem evict_renamed (cfg : Config) (c : Chan) (s : State) :
    evict (cfg.readdressed f) c (s.renamed f) = (evict cfg c s).renamed f := by
  simp [evict, apply_ite (State.renamed f)]

@[simp] theorem stampVoice_renamed (c : Chan) (n : Note) (v : Velocity) (s : State) :
    stampVoice c n v (s.renamed f) = (stampVoice c n v s).renamed f := rfl

theorem bindVoice_renamed (cfg : Config) (c : Chan) (n : Note) (v : Velocity) (s : State) :
    bindVoice (cfg.readdressed f) c n v (s.renamed f) = (bindVoice cfg c n v s).renamed f := by
  simp [bindVoice, noteOnRecipe]

theorem bindAll_renamed (cfg : Config) (t : List Chan) (n : Note) (v : Velocity) (s : State) :
    bindAll (cfg.readdressed f) t n v (s.renamed f) = (bindAll cfg t n v s).renamed f :=
  List.foldl_hom (State.renamed f) fun s c => bindVoice_renamed f cfg c n v s

theorem startNote_renamed (cfg : Config) (hint : BitVec 4) (note vel : BitVec 8) (s : State) :
    startNote (cfg.readdressed f) hint note vel (s.renamed f) = (startNote cfg hint note vel s).renamed f := by
  simp [startNote, bindAll_renamed]

@[simp] theorem releaseVoice_renamed (cfg : Config) (c : Chan) (s : State) :
    releaseVoice (cfg.readdressed f) c (s.renamed f) = (releaseVoice cfg c s).renamed f := by
  simp [releaseVoice]

theorem stopNote_renamed (cfg : Config) (note : BitVec 8) (s : State) :
    stopNote (cfg.readdressed f) note (s.renamed f) = (stopNote cfg note s).renamed f :=
  List.foldl_hom (State.renamed f) fun s c => by simp [releaseIfHolding, apply_ite (State.renamed f)]

theorem stopAllNotes_renamed (cfg : Config) (s : State) :
    stopAllNotes (cfg.readdressed f) (s.renamed f) = (stopAllNotes cfg s).renamed f :=
  List.foldl_hom (State.renamed f) fun s c => by simp [releaseIfSounding, apply_ite (State.renamed f)]

theorem answerChannel_renamed (note : BitVec 8) (s : State) :
    answerChannel note (s.renamed f) = (answerChannel note s).renamed f := by
  simp [answerChannel]

theorem allocModeChange_renamed (m : BitVec 8) (s : State) :
    allocModeChange m (s.renamed f) = (allocModeChange m s).renamed f := by
  unfold allocModeChange; cases modeOperand m <;> rfl

theorem channelOrderChange_renamed (imm : BitVec 24) (s : State) :
    channelOrderChange imm (s.renamed f) = (channelOrderChange imm s).renamed f := by
  unfold channelOrderChange; cases orderOperand imm <;> rfl

/-! #### The enable flags and the expansion unit -/

@[simp] theorem setEnabled_renamed (s : State) (c : Chan) (b : Bool) :
    (s.renamed f).setEnabled c b = (s.setEnabled c b).renamed f := rfl

@[simp] theorem writeEnable_renamed (cfg : Config) (c : Chan) (e : Bool) (s : State) :
    writeEnable (cfg.readdressed f) c e (s.renamed f) = (writeEnable cfg c e s).renamed f := by
  cases hp : c.phi with
  | none => simp [writeEnable, hp, apply_ite (State.renamed f)]
  | some r => simp [writeEnable, hp, apply_ite (State.renamed f)]

theorem channelEnableChange_renamed (cfg : Config) (chn b : BitVec 8) (s : State) :
    channelEnableChange (cfg.readdressed f) chn b (s.renamed f) = (channelEnableChange cfg chn b s).renamed f := by
  cases hc : channelOperand chn with
  | none => simp [channelEnableChange, hc]
  | some c => simp [channelEnableChange, hc, apply_ite (State.renamed f)]

theorem silence_renamed (c : Chan) (s : State) : silence c (s.renamed f) = (silence c s).renamed f := rfl

theorem expansionOff_renamed (cfg : Config) (s : State) :
    expansionOff (cfg.readdressed f) (s.renamed f) = (expansionOff cfg s).renamed f := by
  have hoff : { s.renamed f with expEn := false } = State.renamed f { s with expEn := false } := rfl
  have hbyte : (cfg.readdressed f).expOff = cfg.expOff := rfl
  simp only [expansionOff, hoff, hbyte, busWrites_renamed, silence_renamed]

theorem expansionChange_renamed (cfg : Config) (b : BitVec 8) (s : State) :
    expansionChange (cfg.readdressed f) b (s.renamed f) = (expansionChange cfg b s).renamed f := by
  have hon : { s.renamed f with expEn := true } = State.renamed f { s with expEn := true } := rfl
  simp only [expansionChange, State.renamed_expEn, hon, expansionOff_renamed, apply_ite (State.renamed f)]

/-! #### The setters that re-encode a sounding channel -/

theorem pulseDutyChange_renamed (cfg : Config) (idx level : BitVec 8) (s : State) :
    pulseDutyChange (cfg.readdressed f) idx level (s.renamed f) = (pulseDutyChange cfg idx level s).renamed f := by
  unfold pulseDutyChange
  cases pulseIndexOperand idx with
  | none => rfl
  | some k => rw [apply_ite (State.renamed f), ← busWrite_renamed]; rfl

theorem expPulseDutyChange_renamed (cfg : Config) (idx level : BitVec 8) (s : State) :
    expPulseDutyChange (cfg.readdressed f) idx level (s.renamed f)
      = (expPulseDutyChange cfg idx level s).renamed f := by
  unfold expPulseDutyChange
  cases pulseIndexOperand idx with
  | none => rfl
  | some k => rw [apply_ite (State.renamed f), ← busWrite_renamed]; rfl

theorem noiseModeChange_renamed (cfg : Config) (b : BitVec 8) (s : State) :
    noiseModeChange (cfg.readdressed f) b (s.renamed f) = (noiseModeChange cfg b s).renamed f := by
  have hset : { s.renamed f with noiseMode := boolOperand b }
      = State.renamed f { s with noiseMode := boolOperand b } := rfl
  simp only [noiseModeChange, hset, State.renamed_entry]
  split
  · rfl
  · exact busWrite_renamed f cfg _ _ _

/-! #### The clock scheduler -/

theorem clearVoices_renamed (s : State) : clearVoices (s.renamed f) = (clearVoices s).renamed f :=
  List.foldl_hom (State.renamed f) fun _ _ => rfl

theorem initialiseCore_renamed (cfg : Config) (sr : BitVec 24) (s : State) :
    initialiseCore (cfg.readdressed f) sr (s.renamed f) = (initialiseCore cfg sr s).renamed f := by
  by_cases h : sr = 0
  · subst h; rfl
  · have hannounce (u : State) :
        emit .resetState (emit (.configureClock (cfg.readdressed f).mclkNum (cfg.readdressed f).mclkDen sr)
            { u.renamed f with sr := sr, acc := 0, init := true })
          = (emit .resetState (emit (.configureClock cfg.mclkNum cfg.mclkDen sr)
              { u with sr := sr, acc := 0, init := true })).renamed f := by
      simp [emit, State.renamed, Event.renamed, Config.readdressed]
    have hwipe (u : State) : State.clearImage { u.renamed f with stampCounter := 0 }
        = (State.clearImage { u with stampCounter := 0 }).renamed f := rfl
    simp only [initialiseCore, if_neg h, hannounce, clearVoices_renamed, hwipe, writeStatus_renamed]

theorem sampleStep_renamed (cfg : Config) (s : State) :
    sampleStep (cfg.readdressed f) (s.renamed f) = (sampleStep cfg s).renamed f := by
  simp [sampleStep_eq, State.renamed, State.accDen, Config.readdressed, apply_ite (List.map _), Event.renamed]

theorem sampleSteps_renamed (cfg : Config) (n : Nat) (s : State) :
    sampleSteps (cfg.readdressed f) n (s.renamed f) = (sampleSteps cfg n s).renamed f := by
  induction n generalizing s with
  | zero => rfl
  | succ n ih => rw [sampleSteps_succ, sampleStep_renamed, ih, sampleSteps_succ]

theorem renderBlock_renamed (cfg : Config) (n : BitVec 24) (s : State) :
    renderBlock (cfg.readdressed f) n (s.renamed f) = (renderBlock cfg n s).renamed f := by
  cases h : s.init
  · simp [renderBlock, h]; rfl
  · simp [renderBlock, h, sampleSteps_renamed]

/-! #### Every command -/

/-- A command's effect at the renamed map, on the renamed trace, is its effect renamed. -/
theorem effect_renamed (cfg : Config) (i : Instr) (s : State) :
    effect (cfg.readdressed f) i (s.renamed f) = (effect cfg i s).renamed f := by
  cases i with
  | init sr => exact initialiseCore_renamed f cfg sr s
  | tick n => exact renderBlock_renamed f cfg n s
  | noteOn hint note vel => exact startNote_renamed f cfg hint note vel s
  | noteOff _ note => exact stopNote_renamed f cfg note s
  | allNotesOff => exact stopAllNotes_renamed f cfg s
  | getChannel note => exact answerChannel_renamed f note s
  | setChannelEnabled chn b => exact channelEnableChange_renamed f cfg chn b s
  | setPulseDuty idx level => exact pulseDutyChange_renamed f cfg idx level s
  | setNoiseMode b => exact noiseModeChange_renamed f cfg b s
  | setExpansionEnabled b => exact expansionChange_renamed f cfg b s
  | setExpPulseDuty idx level => exact expPulseDutyChange_renamed f cfg idx level s
  | setAllocMode m => exact allocModeChange_renamed f m s
  | setSplitPoint note => rfl
  | setChannelOrder imm => exact channelOrderChange_renamed f imm s

/-- The same of the whole command, the `fault` test included (R254). -/
theorem execWith_renamed (cfg : Config) (i : Instr) {s t : State} (h : execWith cfg i s = .next t) :
    execWith (cfg.readdressed f) i (s.renamed f) = .next (t.renamed f) := by
  obtain ⟨hfault, rfl⟩ | ⟨hfault, rfl⟩ := (unlessHalted_next_iff _ s t).1 h
  · exact unlessHalted_halted _ hfault
  · rw [← effect_renamed]
    exact unlessHalted_running _ hfault

end Renaming

/-- Settles O50: the second map is the first one renamed, and renaming commutes with every command. -/
theorem anotherAddressMapOnlyRenames : Obligations.AnotherAddressMapOnlyRenames := by
  unfold Obligations.AnotherAddressMapOnlyRenames
  intro cfg addr f i s t haddr h
  obtain rfl : addr = fun r => f (cfg.addr r) := funext haddr
  exact execWith_renamed f cfg i h

/-! ### Memory: the addresses a step writes

A renaming that leaves the 22 default addresses as they are and sends every other address to one of them leaves the default
map as it is; so it leaves the events of a command as they are, and these can name no other address (R64, R74). -/

/-- The named register at an address; STATUS for an address that no register has. -/
def registerAt (a : Addr) : Reg := (Reg.all.find? fun r => defaultAddr r = a).getD .status

theorem registerAt_defaultAddr (r : Reg) : registerAt (defaultAddr r) = r := by cases r <;> decide

/-- The renaming that collapses all addresses onto the 22 of the default map. -/
def toNamedAddr (a : Addr) : Addr := defaultAddr (registerAt a)

theorem defaultConfig_readdressed_toNamedAddr : defaultConfig.readdressed toNamedAddr = defaultConfig := by
  have haddr : (fun r => toNamedAddr (defaultAddr r)) = defaultAddr :=
    funext fun r => congrArg defaultAddr (registerAt_defaultAddr r)
  exact congrArg (fun addr => { defaultConfig with addr := addr }) haddr

/-- A bus write of a collapsed trace is at a named register. -/
theorem exists_register_of_mem_renamed {evs : List Event} {a : Addr} {v : Byte}
    (h : .memWrite a v ∈ evs.map (Event.renamed toNamedAddr)) : ∃ r, a = defaultAddr r := by
  obtain ⟨e, -, he⟩ := List.mem_map.1 h
  cases e with
  | memWrite b w => exact ⟨registerAt b, (Event.memWrite.inj he).1.symm⟩
  | _ => cases he

/-- `t` has sent more than `s`, and every bus write among it is at a named register. -/
def SendsNamedWrites (s t : State) : Prop :=
  ∃ evs, t.trace = s.trace ++ evs ∧ ∀ (a : Addr) (v : Byte), Event.memWrite a v ∈ evs → ∃ r, a = defaultAddr r

theorem sendsNamedWrites_of_trace_eq {s t : State} (h : t.trace = s.trace) : SendsNamedWrites s t :=
  ⟨[], by simp [h], by simp⟩

/-- What a command sends is what it sends after an empty trace, and that trace equals its own collapse. -/
theorem sendsNamedWrites_effect (i : Instr) (s : State) : SendsNamedWrites s (effect defaultConfig i s) := by
  set s₀ : State := { s with trace := [] } with hs₀
  set sent := (effect defaultConfig i s₀).trace with hsent
  have hplaced : s = s₀.inContext s.trace s.input := by simp [hs₀, State.inContext]
  have hcollapse : sent = sent.map (Event.renamed toNamedAddr) := by
    have h := effect_renamed toNamedAddr defaultConfig i s₀
    rw [defaultConfig_readdressed_toNamedAddr] at h
    exact congrArg State.trace h
  refine ⟨sent, ?_, fun a v hmem => exists_register_of_mem_renamed (hcollapse ▸ hmem)⟩
  calc (effect defaultConfig i s).trace
      = (effect defaultConfig i (s₀.inContext s.trace s.input)).trace := by rw [← hplaced]
    _ = s.trace ++ sent := by rw [effect_inContext]; rfl

theorem sendsNamedWrites_exec {i : Instr} {s t : State} (h : exec i s = .next t) : SendsNamedWrites s t := by
  obtain ⟨-, rfl⟩ | ⟨-, rfl⟩ := (exec_next_iff i s t).1 h
  · exact sendsNamedWrites_of_trace_eq rfl
  · exact sendsNamedWrites_effect i s

/-- Settles O16: of the four things a step can do, only a command sends anything. -/
theorem everyWriteIsToANamedRegister : Obligations.EveryWriteIsToANamedRegister := by
  unfold Obligations.EveryWriteIsToANamedRegister
  intro s t hstep
  obtain ⟨-, rfl⟩ | ⟨_, rest, i, -, -, hexec⟩ | ⟨_, rest, _, -, -, rfl⟩ | ⟨rest, -, rfl⟩ := step_cases hstep
  · exact sendsNamedWrites_of_trace_eq rfl
  · have hsent : SendsNamedWrites { s with input := rest } t := sendsNamedWrites_exec hexec
    exact hsent
  · exact sendsNamedWrites_of_trace_eq rfl
  · exact sendsNamedWrites_of_trace_eq rfl

end Sys2Proof.Machine

/-! ### The encoding: the examined bits of a command word

A word decodes to a command exactly when the word, with the bits that the command's format ignores cleared, is the assembled
word of that command (R91 to R95, R102). The statements about decoding follow from this and from the operation code alone. -/

namespace Sys2Proof

/-! #### A word in terms of its fields -/

/-- Bits 19:16, which no format but I examines (R91, R93 to R95). -/
def spareField (w : Word) : BitVec 4 := w.extractLsb' 16 4

theorem word_eq_append (w : Word) : w = opField w ++ immField w :=
  ((BitVec.extractLsb'_append_extractLsb'_eq_extractLsb' (len₁ := 24) rfl).trans BitVec.extractLsb'_eq_self).symm

theorem immField_eq_append (w : Word) :
    immField w = hintField w ++ spareField w ++ highByteField w ++ lowByteField w := by
  have hnibbles : hintField w ++ spareField w = w.extractLsb' 16 8 :=
    BitVec.extractLsb'_append_extractLsb'_eq_extractLsb' (by decide)
  have hbytes : w.extractLsb' 16 8 ++ highByteField w = w.extractLsb' 8 16 :=
    BitVec.extractLsb'_append_extractLsb'_eq_extractLsb' (by decide)
  have himm : w.extractLsb' 8 16 ++ lowByteField w = immField w :=
    BitVec.extractLsb'_append_extractLsb'_eq_extractLsb' (by decide)
  rw [hnibbles, hbytes, himm]

theorem fields_and (hint₁ hint₂ spare₁ spare₂ : BitVec 4) (high₁ high₂ low₁ low₂ : BitVec 8) :
    (hint₁ ++ spare₁ ++ high₁ ++ low₁) &&& (hint₂ ++ spare₂ ++ high₂ ++ low₂) =
      (hint₁ &&& hint₂) ++ (spare₁ &&& spare₂) ++ (high₁ &&& high₂) ++ (low₁ &&& low₂) := by
  simp only [BitVec.and_append]

/-! #### The mask of a command -/

theorem opField_and (v w : Word) : opField (v &&& w) = opField v &&& opField w := BitVec.extractLsb'_and

theorem opField_significantBits (i : Instr) : opField (significantBits i) = BitVec.allOnes 8 := by
  cases i <;> dsimp only [significantBits] <;> decide

theorem opField_encode (i : Instr) : opField (encode i) = opcode i := opField_append _ _

/-- The examined bits of the format that an operation code has (R100). -/
def examinedBits (op : BitVec 8) : Word :=
  match op.toNat with
  | 0x10 => 0xFFF0FFFF
  | 0x11 => 0xFFF0FF00
  | 0x12 => 0xFF000000
  | 0x13 => 0xFF00FF00
  | 0x20 | 0x21 | 0x24 => 0xFF00FFFF
  | 0x22 | 0x23 | 0x25 | 0x26 => 0xFF0000FF
  | _ => 0xFFFFFFFF

theorem significantBits_eq_examinedBits (i : Instr) : significantBits i = examinedBits (opcode i) := by
  cases i <;> rfl

/-! #### From a word to its command -/

section Masked

variable {w : Word} {i : Instr} (hop : (opField w).toNat = (opcode i).toNat)
include hop

/-- Format I: nothing is ignored (R92). -/
theorem encode_eq_masked_of_immediate (hmask : significantBits i = BitVec.allOnes 32) (himm : payload i = immField w) :
    encode i = w &&& significantBits i := by
  rw [hmask, BitVec.and_allOnes, encode, himm, ← BitVec.eq_of_toNat_eq hop, ← word_eq_append]

/-- Any other format: the payload is masked field by field. -/
theorem encode_eq_masked_of_fields {hint : BitVec 4} {high low : BitVec 8}
    (hmask : significantBits i = BitVec.allOnes 8 ++ (hint ++ 0#4 ++ high ++ low))
    (hfields : payload i =
      (hintField w &&& hint) ++ (spareField w &&& 0#4) ++ (highByteField w &&& high) ++ (lowByteField w &&& low)) :
    encode i = w &&& significantBits i := by
  have himm : payload i = immField w &&& (hint ++ 0#4 ++ high ++ low) := by
    rw [hfields, immField_eq_append]
    exact (fields_and _ _ _ _ _ _ _ _).symm
  calc encode i = opField w ++ (immField w &&& (hint ++ 0#4 ++ high ++ low)) := by
        rw [encode, himm, BitVec.eq_of_toNat_eq hop]
    _ = (opField w ++ immField w) &&& significantBits i := by rw [hmask, BitVec.and_append, BitVec.and_allOnes]
    _ = w &&& significantBits i := by rw [← word_eq_append]

/-- Format AB (R93). -/
theorem encode_eq_masked_of_bytes (hmask : significantBits i = 0xFF00FFFF)
    (hfields : payload i = 0#8 ++ highByteField w ++ lowByteField w) :
    encode i = w &&& significantBits i :=
  encode_eq_masked_of_fields hop (hint := 0#4) (high := .allOnes 8) (low := .allOnes 8) hmask
    (by simp only [hfields, BitVec.and_allOnes, BitVec.and_zero]; rfl)

/-- Format A (R94). -/
theorem encode_eq_masked_of_lowByte (hmask : significantBits i = 0xFF0000FF)
    (hfields : payload i = 0#16 ++ lowByteField w) :
    encode i = w &&& significantBits i :=
  encode_eq_masked_of_fields hop (hint := 0#4) (high := 0#8) (low := .allOnes 8) hmask
    (by simp only [hfields, BitVec.and_allOnes, BitVec.and_zero]; rfl)

end Masked

/-- A word that decodes to a command is that command's assembled word once the ignored bits are cleared (R102). -/
theorem encode_eq_masked_of_decode {w : Word} {i : Instr} (h : decode w = .command i) :
    encode i = w &&& significantBits i := by
  unfold decode at h
  split at h <;> cases h
  case h_1 hop => exact encode_eq_masked_of_immediate hop rfl rfl
  case h_2 hop => exact encode_eq_masked_of_immediate hop rfl rfl
  case h_3 hop =>
    exact encode_eq_masked_of_fields hop (hint := .allOnes 4) (high := .allOnes 8) (low := .allOnes 8) rfl
      (by simp only [payload, BitVec.and_allOnes, BitVec.and_zero])
  case h_4 hop =>
    exact encode_eq_masked_of_fields hop (hint := .allOnes 4) (high := .allOnes 8) (low := 0#8) rfl
      (by simp only [payload, BitVec.and_allOnes, BitVec.and_zero])
  case h_5 hop =>
    exact encode_eq_masked_of_fields hop (hint := 0#4) (high := 0#8) (low := 0#8) rfl
      (by simp only [payload, BitVec.and_zero]; rfl)
  case h_6 hop =>
    exact encode_eq_masked_of_fields hop (hint := 0#4) (high := .allOnes 8) (low := 0#8) rfl
      (by simp only [payload, BitVec.and_allOnes, BitVec.and_zero]; rfl)
  case h_7 hop => exact encode_eq_masked_of_bytes hop rfl rfl
  case h_8 hop => exact encode_eq_masked_of_bytes hop rfl rfl
  case h_9 hop => exact encode_eq_masked_of_lowByte hop rfl rfl
  case h_10 hop => exact encode_eq_masked_of_lowByte hop rfl rfl
  case h_11 hop => exact encode_eq_masked_of_bytes hop rfl rfl
  case h_12 hop => exact encode_eq_masked_of_lowByte hop rfl rfl
  case h_13 hop => exact encode_eq_masked_of_lowByte hop rfl rfl
  case h_14 hop => exact encode_eq_masked_of_immediate hop rfl rfl

theorem opcode_eq_of_masked {w : Word} {i : Instr} (h : encode i = w &&& significantBits i) : opcode i = opField w := by
  rw [← opField_encode, h, opField_and, opField_significantBits, BitVec.and_allOnes]

theorem opcode_eq_of_decode {w : Word} {i : Instr} (h : decode w = .command i) : opcode i = opField w :=
  opcode_eq_of_masked (encode_eq_masked_of_decode h)

theorem eq_opField_of_decode_reserved {w : Word} {op : BitVec 8} (h : decode w = .reserved op) : op = opField w := by
  unfold decode at h
  split at h <;> cases h
  rfl

/-- The payload takes no part in selecting a command (R100). -/
theorem exists_decode_iff_opcode (w : Word) : (∃ i, decode w = .command i) ↔ ∃ i, opcode i = opField w := by
  constructor
  · rintro ⟨i, hi⟩
    exact ⟨i, opcode_eq_of_decode hi⟩
  · rintro ⟨i, hi⟩
    cases hw : decode w with
    | command j => exact ⟨j, rfl⟩
    | reserved op => exact absurd hw (Laws.EncodeOpcode.decode_ne_reserved hi.symm op)

theorem encode_injective : Function.Injective encode := fun i j h =>
  Decoded.command.inj (by rw [← decode_encode, ← decode_encode, h])

/-- The word decodes to some command with the operation code of `i`, which examines the same bits and so is `i`. -/
theorem decode_of_encode_eq_masked {w : Word} {i : Instr} (h : encode i = w &&& significantBits i) :
    decode w = .command i := by
  have hop : opcode i = opField w := opcode_eq_of_masked h
  obtain ⟨j, hj⟩ := (exists_decode_iff_opcode w).2 ⟨i, hop⟩
  have hmask : significantBits j = significantBits i := by
    rw [significantBits_eq_examinedBits, significantBits_eq_examinedBits, opcode_eq_of_decode hj, hop]
  have hword : encode j = encode i := by rw [encode_eq_masked_of_decode hj, hmask, h]
  rw [hj, encode_injective hword]

theorem decode_eq_command_iff (w : Word) (i : Instr) : decode w = .command i ↔ encode i = w &&& significantBits i :=
  ⟨encode_eq_masked_of_decode, decode_of_encode_eq_masked⟩

theorem encode_and_significantBits (i : Instr) : encode i &&& significantBits i = encode i :=
  ((decode_eq_command_iff _ i).1 (decode_encode i)).symm

/-- Masking removes the junk and leaves the assembled word. -/
theorem decode_encode_or_ignored (i : Instr) (junk : Word) :
    decode (encode i ||| (junk &&& ~~~ significantBits i)) = .command i := by
  refine (decode_eq_command_iff _ i).2 ?_
  simp [BitVec.and_or_distrib_right, encode_and_significantBits, BitVec.and_assoc]

theorem encode_and_ignored (i : Instr) : encode i &&& ~~~ significantBits i = 0 := by
  rw [← encode_and_significantBits, BitVec.and_assoc, BitVec.and_not_self]
  exact BitVec.and_zero

/-! #### The operation codes -/

/-- One command of each row of the opcode table (R100). -/
def commandRows : List Instr :=
  [.init 0, .tick 0, .noteOn 0 0 0, .noteOff 0 0, .allNotesOff, .getChannel 0, .setChannelEnabled 0 0, .setPulseDuty 0 0,
   .setNoiseMode 0, .setExpansionEnabled 0, .setExpPulseDuty 0 0, .setAllocMode 0, .setSplitPoint 0, .setChannelOrder 0]

/-- The 14 operation codes of the opcode table (R100). -/
def commandCodes : List Nat :=
  [0x01, 0x02, 0x10, 0x11, 0x12, 0x13, 0x20, 0x21, 0x22, 0x23, 0x24, 0x25, 0x26, 0x27]

theorem opcode_mem_commandCodes (i : Instr) : (opcode i).toNat ∈ commandCodes := by
  cases i <;> simp [opcode, commandCodes]

theorem mem_commandCodes_iff (k : Nat) : k ∈ commandCodes ↔ ∃ i, (opcode i).toNat = k := by
  constructor
  · intro hk
    have hrows : commandCodes = commandRows.map fun i => (opcode i).toNat := rfl
    obtain ⟨i, -, hi⟩ := List.mem_map.1 (hrows ▸ hk)
    exact ⟨i, hi⟩
  · rintro ⟨i, rfl⟩
    exact opcode_mem_commandCodes i

theorem exists_decode_iff_topByte (w : Word) : (∃ i, decode w = .command i) ↔ w.toNat / 2 ^ 24 ∈ commandCodes := by
  rw [exists_decode_iff_opcode, mem_commandCodes_iff, ← opField_toNat]
  simp only [BitVec.toNat_inj]

theorem decode_eq_reserved {w : Word} (h : w.toNat / 2 ^ 24 ∉ commandCodes) :
    decode w = .reserved (BitVec.ofNat 8 (w.toNat / 2 ^ 24)) := by
  cases hw : decode w with
  | command i => exact absurd ((exists_decode_iff_topByte w).1 ⟨i, hw⟩) h
  | reserved op => rw [eq_opField_of_decode_reserved hw, ← opField_toNat, BitVec.ofNat_toNat, BitVec.setWidth_eq]

end Sys2Proof

namespace Sys2Proof.Machine

theorem step_reserved {s : State} {w : Word} {rest : List PortInput} {op : BitVec 8} (hinput : s.input = .command w :: rest)
    (hdecode : decode w = .reserved op) : step s = .next { s with input := rest } := by
  unfold step runWord
  rw [hinput]
  dsimp only
  rw [hdecode]

/-- Only MidiChannelSplit examines the hint (R102, R205 to R210). -/
theorem targets_hint_irrelevant (cfg : Config) {s : State} (hmode : s.mode ≠ .midiChannelSplit) (h k : BitVec 4)
    (n : Note) : targets cfg s h n = targets cfg s k n := by
  unfold targets
  cases hm : s.mode with
  | midiChannelSplit => exact absurd hm hmode
  | _ => rfl

theorem startNote_hint_irrelevant (cfg : Config) {s : State} (hmode : s.mode ≠ .midiChannelSplit) (h k : BitVec 4)
    (note vel : BitVec 8) : startNote cfg h note vel s = startNote cfg k note vel s := by
  unfold startNote
  rw [targets_hint_irrelevant cfg hmode h k]

/-! #### The statements -/

/-- Settles O1: the operation code selects the command, and each operand is read where the assembler put it. -/
theorem encodedCommandDecodesBack : Obligations.EncodedCommandDecodesBack := by
  unfold Obligations.EncodedCommandDecodesBack
  exact fun i _ => decode_encode i

/-- Settles O2: the word is taken apart into its fields and masked field by field. -/
theorem decodedWordKeepsItsSignificantBits : Obligations.DecodedWordKeepsItsSignificantBits := by
  unfold Obligations.DecodedWordKeepsItsSignificantBits
  exact fun _ _ => encode_eq_masked_of_decode

/-- Settles O3: a word is not reserved exactly when some command has its operation code. -/
theorem decodingIsByTheTopByte : Obligations.DecodingIsByTheTopByte := by
  unfold Obligations.DecodingIsByTheTopByte
  refine fun w => ⟨exists_decode_iff_topByte w, fun i hi => ?_⟩
  rw [opcode_eq_of_decode hi, opField_toNat]

/-- Settles O4: none of the 14 operation codes lies in the four ranges of R101. -/
theorem reservedOpcodeIsNoOperation : Obligations.ReservedOpcodeIsNoOperation := by
  unfold Obligations.ReservedOpcodeIsNoOperation
  intro s w rest hinput hrange
  have hcode : w.toNat / 2 ^ 24 ∉ commandCodes := by
    simp only [commandCodes, List.mem_cons, List.not_mem_nil, or_false]
    omega
  exact ⟨decode_eq_reserved hcode, step_reserved hinput (decode_eq_reserved hcode)⟩

/-- Settles O5: the ignored bits are outside the mask that decides what a word decodes to; NOTE_OFF's meaning has no hint, and
NOTE_ON's reads it through its targets only. -/
theorem ignoredBitsHaveNoEffect : Obligations.IgnoredBitsHaveNoEffect := by
  unfold Obligations.IgnoredBitsHaveNoEffect
  refine ⟨decode_encode_or_ignored, encode_and_ignored, fun h k note s => rfl, fun h k note vel s hmode => ?_⟩
  have heffect := startNote_hint_irrelevant defaultConfig hmode h k note vel
  simp only [exec_eq_unlessHalted, unlessHalted, effect, heffect]

/-- Settles O6: each of the eight words is decoded by evaluation. -/
theorem workedEncodingsDecode : Obligations.WorkedEncodingsDecode := by
  unfold Obligations.WorkedEncodingsDecode
  decide

end Sys2Proof.Machine

/-! ### The clock scheduler: INIT and TICK

At the default parameters one command at a time: what INIT sets up (R122), and what a TICK renders (R123, R124). -/

namespace Sys2Proof.Machine

theorem accDen_defaultConfig (s : State) : s.accDen defaultConfig = 10 * s.sr.toNat := rfl

/-- TICK on an initialised core is its sample steps, and nothing but those (R124). -/
theorem renderBlock_initialised (cfg : Config) (n : BitVec 24) {s : State} (hinit : s.init = true) :
    renderBlock cfg n s = sampleSteps cfg n.toNat s := if_pos hinit

/-- TICK on a core that is not initialised is the exception, whatever `n` is (R250). -/
theorem renderBlock_uninitialised (cfg : Config) (n : BitVec 24) {s : State} (hinit : s.init = false) :
    renderBlock cfg n s = takeException .notInitialised s := by simp [renderBlock, hinit]

theorem exec_tick_initialised (n : BitVec 24) {s : State} (hrun : s.fault = false) (hinit : s.init = true) :
    exec (.tick n) s = .next (sampleSteps defaultConfig n.toNat s) := by
  rw [exec_running _ hrun, effect, renderBlock_initialised _ n hinit]

theorem exec_tick_uninitialised (n : BitVec 24) {s : State} (hrun : s.fault = false) (hinit : s.init = false) :
    exec (.tick n) s = .next (takeException .notInitialised s) := by
  rw [exec_running _ hrun, effect, renderBlock_uninitialised _ n hinit]

/-- A block of sample steps as one update of the state (R123). -/
theorem sampleSteps_eq (cfg : Config) (n : Nat) {s : State} (hacc : s.acc < s.accDen cfg) :
    sampleSteps cfg n s =
      { s with
        acc := (s.acc + n * cfg.mclkNum) % s.accDen cfg
        trace := s.trace ++ (List.range n).flatMap (sampleEvents cfg.mclkNum (s.accDen cfg) s.acc) } := by
  rw [sampleSteps_frame, sampleSteps_acc cfg n s hacc, sampleSteps_trace cfg n s hacc]

@[simp] theorem sampleSteps_fault (cfg : Config) (n : Nat) (s : State) : (sampleSteps cfg n s).fault = s.fault := by
  rw [sampleSteps_frame]

@[simp] theorem sampleSteps_init (cfg : Config) (n : Nat) (s : State) : (sampleSteps cfg n s).init = s.init := by
  rw [sampleSteps_frame]

/-- Settles O23: the two cases of INIT are the two laws of `initialiseCore`, read at the default parameters. -/
theorem initSetsUpTheCore : Obligations.InitSetsUpTheCore := by
  unfold Obligations.InitSetsUpTheCore
  intro s sr hrun
  rw [exec_running _ hrun]
  refine ⟨fun hzero => ?_, fun hsr => ?_⟩
  · subst hzero
    exact congrArg Host.Outcome.next (initialiseCore_zero defaultConfig s)
  · obtain ⟨table, image, heq, htable, himage⟩ := initialiseCore_frame defaultConfig sr s hsr
    rw [statusMask_eq] at heq himage
    exact ⟨_, congrArg Host.Outcome.next heq, rfl, rfl, rfl, htable, rfl, himage, rfl, rfl⟩

/-- Settles O24: the block of sample steps as one update, at the default master clock. -/
theorem tickRendersItsSamples : Obligations.TickRendersItsSamples := by
  unfold Obligations.TickRendersItsSamples
  intro s n hrun hinit hacc
  rw [exec_tick_initialised n hrun hinit, sampleSteps_eq defaultConfig n.toNat hacc]
  rfl

/-- Settles O25: a halted core ignores all three, an uninitialised one faults at the first and ignores the second, and on a
running one the sample steps are counted on. -/
theorem ticksAddUp : Obligations.TicksAddUp := by
  unfold Obligations.TicksAddUp
  intro s t a b hsum hfirst
  cases hrun : s.fault with
  | true =>
    rw [exec_halted _ hrun] at hfirst
    obtain rfl := Host.Outcome.next.inj hfirst
    rw [exec_halted _ hrun, exec_halted _ hrun]
  | false =>
    cases hinit : s.init with
    | false =>
      rw [exec_tick_uninitialised a hrun hinit] at hfirst
      obtain rfl := Host.Outcome.next.inj hfirst
      rw [exec_tick_uninitialised (a + b) hrun hinit, exec_halted _ (takeException_fault _ s)]
    | true =>
      rw [exec_tick_initialised a hrun hinit] at hfirst
      obtain rfl := Host.Outcome.next.inj hfirst
      rw [exec_tick_initialised b (by rw [sampleSteps_fault, hrun]) (by rw [sampleSteps_init, hinit]),
        exec_tick_initialised (a + b) hrun hinit, BitVec.toNat_add_of_lt hsum, sampleSteps_add]

end Sys2Proof.Machine

/-! ### The clock scheduler: pulse totals

The commands between two TICKs neither touch the scheduler's registers nor send a clock event. So what the scheduler shows
of a whole list of commands is what one block of all the samples asked for shows, and the cumulative law is about that one
block (R125). -/

namespace Sys2Proof.Machine

/-! #### What the scheduler shows -/

/-- The event is one that the sample step sends (R123). -/
def Event.isClock : Event → Bool
  | .advance _ | .renderFrame => true
  | .memWrite _ _ | .configureClock _ _ _ | .resetState | .respond _ => false

/-- The scheduler's part of a state: its two registers, the two flags a TICK looks at, and the clock events sent. -/
structure ClockView where
  /-- The sample rate. -/
  sr : BitVec 24
  /-- The remainder. -/
  acc : Nat
  /-- The core is initialised. -/
  init : Bool
  /-- The core is halted. -/
  fault : Bool
  /-- The clock events sent so far, oldest first. -/
  events : List Event

/-- The scheduler's part of the state (R29, R32, R123). -/
def State.clock (s : State) : ClockView where
  sr := s.sr
  acc := s.acc
  init := s.init
  fault := s.fault
  events := s.trace.filter Event.isClock

theorem clock_emit {e : Event} (he : e.isClock = false) (s : State) : (emit e s).clock = s.clock := by
  simp [State.clock, he]

theorem clock_respond (c : Option Chan) (s : State) : (respond c s).clock = s.clock := clock_emit rfl s

theorem clock_busWrite (cfg : Config) (r : Reg) (v : Byte) (s : State) : (busWrite cfg r v s).clock = s.clock :=
  clock_emit rfl (s.setImage r v)

/-- A loop whose body keeps the scheduler's part keeps it. -/
theorem clock_foldl {α : Type} {f : State → α → State} (hf : ∀ s a, (f s a).clock = s.clock) (l : List α) (s : State) :
    (l.foldl f s).clock = s.clock :=
  List.foldlRecOn (motive := fun t : State => t.clock = s.clock) l f rfl fun t ht a _ => (hf t a).trans ht

/-- An update that a test guards keeps the scheduler's part when the update does. -/
theorem clock_ite {p : Prop} [Decidable p] {s t : State} (h : t.clock = s.clock) :
    (if p then t else s).clock = s.clock := by
  split
  · exact h
  · rfl

theorem clock_busWrites (cfg : Config) (ws : List (Reg × Byte)) (s : State) : (busWrites cfg ws s).clock = s.clock :=
  clock_foldl (fun s (w : Reg × Byte) => clock_busWrite cfg w.1 w.2 s) ws s

/-! #### Commands that leave the scheduler alone -/

theorem clock_bindVoice (cfg : Config) (c : Chan) (n : Note) (v : Velocity) (s : State) :
    (bindVoice cfg c n v s).clock = s.clock :=
  have hevict : (evict cfg c s).clock = s.clock := clock_ite (clock_busWrites cfg _ s)
  have hstamp : (stampVoice c n v (evict cfg c s)).clock = (evict cfg c s).clock := rfl
  (clock_busWrites cfg _ _).trans (hstamp.trans hevict)

theorem clock_startNote (cfg : Config) (hint : BitVec 4) (note vel : BitVec 8) (s : State) :
    (startNote cfg hint note vel s).clock = s.clock :=
  (clock_respond _ _).trans (clock_foldl (fun s c => clock_bindVoice cfg c _ _ s) _ s)

theorem clock_releaseVoice (cfg : Config) (c : Chan) (s : State) : (releaseVoice cfg c s).clock = s.clock :=
  clock_busWrites cfg _ s

theorem clock_stopNote (cfg : Config) (note : BitVec 8) (s : State) : (stopNote cfg note s).clock = s.clock :=
  clock_foldl (fun s c => clock_ite (clock_releaseVoice cfg c s)) _ s

theorem clock_stopAllNotes (cfg : Config) (s : State) : (stopAllNotes cfg s).clock = s.clock :=
  clock_foldl (fun s c => clock_ite (clock_releaseVoice cfg c s)) _ s

/-- Only INIT and TICK concern the scheduler (R38). -/
theorem clock_effect (cfg : Config) {i : Instr} (hinit : ∀ r, i ≠ .init r) (htick : ∀ n, i ≠ .tick n) (s : State) :
    (effect cfg i s).clock = s.clock := by
  cases i with
  | init sr => exact absurd rfl (hinit sr)
  | tick n => exact absurd rfl (htick n)
  | noteOn hint note vel => exact clock_startNote cfg hint note vel s
  | noteOff _ note => exact clock_stopNote cfg note s
  | allNotesOff => exact clock_stopAllNotes cfg s
  | getChannel note => exact clock_respond _ s
  | setChannelEnabled chn b =>
    obtain ⟨table, ws, heq, -⟩ := channelEnableChange_shape cfg chn b s
    exact (congrArg State.clock heq).trans (clock_busWrites cfg ws _)
  | setPulseDuty idx level =>
    obtain ⟨duty, ws, heq, -⟩ := pulseDutyChange_shape cfg idx level s
    exact (congrArg State.clock heq).trans (clock_busWrites cfg ws _)
  | setNoiseMode b =>
    obtain ⟨ws, heq, -⟩ := noiseModeChange_shape cfg b s
    exact (congrArg State.clock heq).trans (clock_busWrites cfg ws _)
  | setExpansionEnabled b =>
    obtain ⟨table, ws, heq, -⟩ := expansionChange_shape cfg b s
    exact (congrArg State.clock heq).trans (clock_busWrites cfg ws s)
  | setExpPulseDuty idx level =>
    obtain ⟨xduty, ws, heq, -⟩ := expPulseDutyChange_shape cfg idx level s
    exact (congrArg State.clock heq).trans (clock_busWrites cfg ws _)
  | setAllocMode m =>
    obtain ⟨mode, heq⟩ := allocModeChange_frame m s
    exact (congrArg State.clock heq).trans rfl
  | setSplitPoint note => rfl
  | setChannelOrder imm =>
    obtain ⟨order, heq⟩ := channelOrderChange_frame imm s
    exact (congrArg State.clock heq).trans rfl

/-! #### A list of commands as one block of samples -/

/-- Sample steps read and write the scheduler's part only (R123). -/
theorem clock_sampleSteps_congr (cfg : Config) (n : Nat) {s t : State} (h : s.clock = t.clock) :
    (sampleSteps cfg n s).clock = (sampleSteps cfg n t).clock := by
  induction n generalizing s t with
  | zero => exact h
  | succ n ih =>
    rw [sampleSteps_succ, sampleSteps_succ]
    apply ih
    simp only [State.clock, ClockView.mk.injEq] at h
    obtain ⟨hsr, hacc, hinit, hfault, hevents⟩ := h
    simp [sampleStep_eq, State.clock, State.accDen, hsr, hacc, hinit, hfault, hevents]

/-- Every command but INIT moves the scheduler on by the samples it asks for. -/
theorem clock_effect_eq_sampleSteps (cfg : Config) {i : Instr} (hi : ∀ r, i ≠ .init r) {s : State}
    (hinit : s.init = true) : (effect cfg i s).clock = (sampleSteps cfg (samplesAsked i) s).clock := by
  by_cases htick : ∃ n, i = .tick n
  · obtain ⟨n, rfl⟩ := htick
    exact congrArg State.clock (renderBlock_initialised cfg n hinit)
  · have hnone : samplesAsked i = 0 := by
      cases i with
      | tick n => exact absurd ⟨n, rfl⟩ htick
      | _ => rfl
    rw [hnone]
    exact clock_effect cfg hi (fun n hn => htick ⟨n, hn⟩) s

/-- A list of commands without an INIT runs to its end, only adds to the trace, and moves the scheduler on as one block of
all the samples asked for does. -/
theorem execAll_clock {is : List Instr} (his : ∀ i ∈ is, ∀ r, i ≠ .init r) {s : State} (hrun : s.fault = false)
    (hinit : s.init = true) :
    ∃ t evs, execAll is s = .next t ∧ t.trace = s.trace ++ evs ∧
      t.clock = (sampleSteps defaultConfig (is.map samplesAsked).sum s).clock := by
  induction is generalizing s with
  | nil => exact ⟨s, [], rfl, (List.append_nil _).symm, rfl⟩
  | cons i is ih =>
    obtain ⟨hi, his⟩ := List.forall_mem_cons.1 his
    have hfirst := clock_effect_eq_sampleSteps defaultConfig hi hinit
    have hrun' : (effect defaultConfig i s).fault = false := by
      rw [← hrun, ← sampleSteps_fault defaultConfig (samplesAsked i) s]
      exact congrArg ClockView.fault hfirst
    have hinit' : (effect defaultConfig i s).init = true := by
      rw [← hinit, ← sampleSteps_init defaultConfig (samplesAsked i) s]
      exact congrArg ClockView.init hfirst
    obtain ⟨t, later, hexec, htrace, hclock⟩ := ih his hrun' hinit'
    obtain ⟨evs, hsent, -⟩ := sendsNamedWrites_effect i s
    refine ⟨t, evs ++ later, ?_, by rw [htrace, hsent, List.append_assoc], ?_⟩
    · rw [execAll, exec_running i hrun]
      exact hexec
    · rw [hclock, List.map_cons, List.sum_cons, sampleSteps_add]
      exact clock_sampleSteps_congr defaultConfig _ hfirst

/-! #### The pulses of one block -/

/-- What one sample step sends: its pulses, when there are any, and the frame (R123). -/
theorem sampleEvents_cases (num den acc k : Nat) :
    ∃ n, n = (acc + (k + 1) * num) / den - (acc + k * num) / den ∧
      (n = 0 ∧ sampleEvents num den acc k = [.renderFrame] ∨ sampleEvents num den acc k = [.advance n, .renderFrame]) := by
  refine ⟨_, rfl, ?_⟩
  unfold sampleEvents
  dsimp only
  split
  · next hzero => exact .inl ⟨hzero, rfl⟩
  · exact .inr rfl

/-- The pulse counts of the sample steps telescope (R125). -/
theorem sum_pulses_sampleEvents (num den acc k : Nat) :
    acc / den + (((List.range k).flatMap (sampleEvents num den acc)).map Event.pulses).sum = (acc + k * num) / den := by
  induction k with
  | zero => simp
  | succ k ih =>
    have hmono : (acc + k * num) / den ≤ (acc + (k + 1) * num) / den := Nat.div_le_div_right (by gcongr; omega)
    have hstep : ((sampleEvents num den acc k).map Event.pulses).sum =
        (acc + (k + 1) * num) / den - (acc + k * num) / den := by
      obtain ⟨n, hn, ⟨hzero, hsent⟩ | hsent⟩ := sampleEvents_cases num den acc k
      · rw [hsent, ← hn, hzero]; rfl
      · rw [hsent, ← hn]; rfl
    rw [List.range_succ, List.flatMap_append, List.map_append, List.sum_append, List.flatMap_singleton, hstep]
    omega

/-- Every sample step sends one frame (R123). -/
theorem count_renderFrame_sampleEvents (num den acc k : Nat) :
    ((List.range k).flatMap (sampleEvents num den acc)).count .renderFrame = k := by
  have hone (j : Nat) : (sampleEvents num den acc j).count .renderFrame = 1 := by
    obtain ⟨n, -, ⟨-, hsent⟩ | hsent⟩ := sampleEvents_cases num den acc j
    · rw [hsent]; rfl
    · rw [hsent]; rfl
  induction k with
  | zero => rfl
  | succ k ih => rw [List.range_succ, List.flatMap_append, List.count_append, ih, List.flatMap_singleton, hone]

/-- Between two points `num` apart lie as many multiples of `den` as the floor or the ceiling of their ratio says. -/
theorem div_add_sub_div (x num : Nat) {den : Nat} (hden : 0 < den) :
    (x + num) / den - x / den = num / den ∨ (x + num) / den - x / den = (num + den - 1) / den := by
  have hx : x % den < den := Nat.mod_lt _ hden
  rw [Nat.add_div hden, Nat.add_assoc, Nat.add_sub_cancel_left]
  by_cases hcarry : den ≤ x % den + num % den
  · right
    have hless : den - 1 < den := Nat.sub_one_lt_of_lt hden
    rw [if_pos hcarry, Nat.add_sub_assoc hden, Nat.add_div hden, Nat.div_eq_of_lt hless, Nat.mod_eq_of_lt hless,
      if_pos (by omega)]
  · left
    rw [if_neg hcarry, Nat.add_zero]

/-- Each `Advance` of a block is the floor or the ceiling of the clocks per sample (R125). -/
theorem advance_of_mem_sampleEvents {num den acc k n : Nat} (hden : 0 < den)
    (h : .advance n ∈ (List.range k).flatMap (sampleEvents num den acc)) :
    n = num / den ∨ n = (num + den - 1) / den := by
  obtain ⟨j, -, hj⟩ := List.mem_flatMap.1 h
  obtain ⟨m, hm, ⟨-, hsent⟩ | hsent⟩ := sampleEvents_cases num den acc j
  · simp [hsent] at hj
  · obtain rfl : n = m := by simpa [hsent] using hj
    rw [hm, Nat.succ_mul, ← Nat.add_assoc]
    exact div_add_sub_div _ num hden

/-! #### Reading a trace through its clock events -/

theorem Event.pulses_of_not_isClock {e : Event} (h : ¬ e.isClock = true) : e.pulses = 0 := by
  cases e with
  | advance n => exact absurd rfl h
  | _ => rfl

theorem sum_pulses_filter_isClock (evs : List Event) :
    ((evs.filter Event.isClock).map Event.pulses).sum = (evs.map Event.pulses).sum := by
  induction evs with
  | nil => rfl
  | cons e evs ih =>
    by_cases he : e.isClock = true
    · rw [List.filter_cons_of_pos he, List.map_cons, List.sum_cons, ih, List.map_cons, List.sum_cons]
    · rw [List.filter_cons_of_neg he, ih, List.map_cons, List.sum_cons, Event.pulses_of_not_isClock he, Nat.zero_add]

/-- Settles O26: the list shows on the scheduler what one block of its samples shows, and that block telescopes. -/
theorem pulseTotalsNeverDrift : Obligations.PulseTotalsNeverDrift := by
  unfold Obligations.PulseTotalsNeverDrift
  intro is s hrun hinit hsr hacc his
  obtain ⟨t, evs, hexec, htrace, hclock⟩ := execAll_clock his hrun hinit
  set k := (is.map samplesAsked).sum
  have hden : 0 < 10 * s.sr.toNat := by
    have : s.sr.toNat ≠ 0 := fun hz => hsr (BitVec.eq_of_toNat_eq hz)
    omega
  have hbound : s.acc < s.accDen defaultConfig := hacc ▸ hden
  rw [sampleSteps_eq defaultConfig k hbound, hacc, accDen_defaultConfig] at hclock
  set block := (List.range k).flatMap (sampleEvents 17897727 (10 * s.sr.toNat) 0) with hblock
  have hevents : evs.filter Event.isClock = block.filter Event.isClock := by
    have h : t.trace.filter Event.isClock = (s.trace ++ block).filter Event.isClock := congrArg ClockView.events hclock
    rw [htrace, List.filter_append, List.filter_append] at h
    exact List.append_cancel_left h
  refine ⟨t, evs, hexec, htrace, ?_, ?_, ?_, fun n hn => ?_⟩
  · rw [← sum_pulses_filter_isClock, hevents, sum_pulses_filter_isClock]
    simpa using sum_pulses_sampleEvents 17897727 (10 * s.sr.toNat) 0 k
  · have h : t.acc = (0 + k * 17897727) % (10 * s.sr.toNat) := congrArg ClockView.acc hclock
    rwa [Nat.zero_add] at h
  · rw [← List.count_filter (p := Event.isClock) rfl, hevents, List.count_filter rfl]
    exact count_renderFrame_sampleEvents _ _ _ k
  · have hmem : .advance n ∈ evs.filter Event.isClock := List.mem_filter.2 ⟨hn, rfl⟩
    rw [hevents] at hmem
    exact advance_of_mem_sampleEvents hden (List.mem_of_mem_filter hmem)

end Sys2Proof.Machine

/-! ### The encoder: the period

For a positive `k` the search of R141 answers at least `k` exactly when `k` passes its test. Over the real numbers that test
says that the rule's formula rounds to at least `k`, and as the note rises it only gets harder (R140, R141, R158). -/

namespace Sys2Proof

/-- The checks of U11 and U12 that the period rests on: both parts of the clock and the sawtooth divisor are positive. -/
theorem Config.positive_of_wellFormed {cfg : Config} (hw : cfg.wellFormed = true) :
    0 < cfg.mclkNum ∧ 0 < cfg.mclkDen ∧ 0 < cfg.sawDivisor := by
  simp only [Config.wellFormed, Bool.and_eq_true] at hw
  obtain ⟨⟨⟨⟨⟨⟨hclock, -⟩, hsaw⟩, -⟩, -⟩, -⟩, -⟩ := hw
  simp only [Config.clockPositive, Config.sawDivisorPositive, Bool.and_eq_true, decide_eq_true_eq] at hclock hsaw
  omega

end Sys2Proof

namespace Sys2Proof.Machine

/-- The frequency ratio of note `n` to note 69, to the twelfth power, with R141's two powers of 2. -/
theorem frequencyRatio_pow (n : Nat) :
    ((2 : ℝ) ^ (((n : ℝ) - 69) / 12)) ^ 12 * 2 ^ (69 - n) = 2 ^ (n - 69) := by
  have hratio : ((2 : ℝ) ^ (((n : ℝ) - 69) / 12)) ^ 12 = 2 ^ ((n : ℝ) - 69) := by
    rw [← Real.rpow_mul_natCast (by norm_num)]; congr 1; push_cast; ring
  rw [hratio, ← Real.rpow_natCast 2 (69 - n), ← Real.rpow_natCast 2 (n - 69), ← Real.rpow_add (by norm_num)]
  congr 1
  rcases Nat.le_total n 69 with hle | hle <;>
  · rw [Nat.sub_eq_zero_of_le hle, Nat.cast_sub hle]; push_cast; ring

/-- `MCLK / (d · frequency(n))` of R140: the clock pulses of one step of a waveform with period divisor `d`. -/
noncomputable def pulsesPerStep (cfg : Config) (n : Note) (d : Nat) : ℝ :=
  ((cfg.mclkNum : ℝ) / (cfg.mclkDen : ℝ)) / ((d : ℝ) * (440 * (2 : ℝ) ^ (((n.val : ℝ) - 69) / 12)))

section Period

variable {cfg : Config} {d : Nat} (hden : 0 < cfg.mclkDen) (hd : 0 < d)
include hden hd

/-! #### The search and its test -/

theorem le_praw_iff (n : Note) {k : Nat} (hk : 0 < k) :
    k ≤ praw cfg n d ↔ periodFits (periodNum cfg n) (periodDen cfg n d) k = true := by
  obtain ⟨hfit, hlargest⟩ := praw_spec cfg n d (periodDen_pos n hd hden)
  refine ⟨fun hle => ?_, hlargest k⟩
  rcases hfit with hzero | hfit
  · omega
  · exact periodFits_of_le hle hfit

/-! #### The note -/

theorem praw_antitone {m n : Note} (hmn : m ≤ n) : praw cfg n d ≤ praw cfg m d := by
  rcases Nat.eq_zero_or_pos (praw cfg n d) with hzero | hpos
  · omega
  have hnum : periodNum cfg n ≤ periodNum cfg m :=
    Nat.mul_le_mul_left _ (Nat.pow_le_pow_right (by norm_num) (Nat.sub_le_sub_left hmn 69))
  have hdivisor : periodDen cfg m d ≤ periodDen cfg n d :=
    Nat.mul_le_mul_left _ (Nat.pow_le_pow_right (by norm_num) (Nat.sub_le_sub_right hmn 69))
  have hfit := (periodFits_iff _ _ _).1 ((le_praw_iff hden hd n hpos).1 le_rfl)
  rw [le_praw_iff hden hd m hpos, periodFits_iff]
  calc (2 * praw cfg n d + 1) ^ 12 * periodDen cfg m d
      ≤ (2 * praw cfg n d + 1) ^ 12 * periodDen cfg n d := Nat.mul_le_mul_left _ hdivisor
    _ ≤ periodNum cfg n := hfit
    _ ≤ periodNum cfg m := hnum

/-! #### The formula over the real numbers -/

theorem two_mul_pulsesPerStep_pow (n : Note) :
    (2 * pulsesPerStep cfg n d) ^ 12 * (periodDen cfg n d : ℝ) = (periodNum cfg n : ℝ) := by
  unfold pulsesPerStep periodDen periodNum
  push_cast
  rw [← frequencyRatio_pow n.val]
  have hratio : (0 : ℝ) < (2 : ℝ) ^ (((n.val : ℝ) - 69) / 12) := by positivity
  field_simp

theorem periodFits_iff_le_pulsesPerStep (n : Note) (k : Nat) :
    periodFits (periodNum cfg n) (periodDen cfg n d) k = true ↔ (k : ℝ) + 1 / 2 ≤ pulsesPerStep cfg n d := by
  have hB : (0 : ℝ) < periodDen cfg n d := by exact_mod_cast periodDen_pos n hd hden
  have hx : 0 ≤ 2 * pulsesPerStep cfg n d := by unfold pulsesPerStep; positivity
  calc periodFits (periodNum cfg n) (periodDen cfg n d) k = true
      ↔ (2 * (k : ℝ) + 1) ^ 12 * (periodDen cfg n d : ℝ) ≤ (periodNum cfg n : ℝ) := by
        rw [periodFits_iff]; exact_mod_cast Iff.rfl
    _ ↔ (2 * (k : ℝ) + 1) ^ 12 ≤ (2 * pulsesPerStep cfg n d) ^ 12 := by
        rw [← two_mul_pulsesPerStep_pow hden hd n, mul_le_mul_iff_left₀ hB]
    _ ↔ 2 * (k : ℝ) + 1 ≤ 2 * pulsesPerStep cfg n d := pow_le_pow_iff_left₀ (by positivity) hx (by norm_num)
    _ ↔ (k : ℝ) + 1 / 2 ≤ pulsesPerStep cfg n d := by constructor <;> intro h <;> linarith

theorem praw_eq_round (n : Note) : praw cfg n d = (round (pulsesPerStep cfg n d - 1)).toNat := by
  refine eq_of_forall_lt_iff fun k => ?_
  rw [← Nat.succ_le_iff, le_praw_iff hden hd n (Nat.succ_pos k), periodFits_iff_le_pulsesPerStep hden hd,
    Int.lt_toNat, ← Int.add_one_le_iff, round_eq, Int.le_floor]
  push_cast
  constructor <;> intro h <;> linarith

end Period

/-! #### The channels -/

theorem divisor_pos {cfg : Config} (hw : cfg.wellFormed = true) {c : Chan} {t : Tone} (ht : c.tone cfg = some t) :
    0 < t.divisor := by
  cases c with
  | noise | sample => cases ht
  | expSawtooth => cases ht; exact (cfg.positive_of_wellFormed hw).2.2
  | _ => cases ht; decide

theorem maxPeriod_eq {cfg : Config} {c : Chan} {t : Tone} (ht : c.tone cfg = some t) :
    t.maxPeriod = if c.isBase then 2047 else 4095 := by
  cases c <;> cases ht <;> rfl

theorem period_eq_some_iff (cfg : Config) (n : Note) (c : Chan) (p : Nat) :
    period cfg n c = some p ↔ ∃ t, c.tone cfg = some t ∧ tonePeriod cfg n t = p := Option.map_eq_some_iff

theorem tonePeriod_antitone {cfg : Config} (hden : 0 < cfg.mclkDen) {t : Tone} (hd : 0 < t.divisor) {m n : Note}
    (hmn : m ≤ n) : tonePeriod cfg n t ≤ tonePeriod cfg m t :=
  min_le_min_right _ (praw_antitone hden hd hmn)

/-- The clamp holds up to a note and no further when the largest period passes the test there and fails at the next. -/
theorem period_eq_maxPeriod_iff {cfg : Config} (hw : cfg.wellFormed = true) {c : Chan} {t : Tone} (ht : c.tone cfg = some t)
    {last next : Note} (hnext : next.val = last.val + 1)
    (hfit : periodFits (periodNum cfg last) (periodDen cfg last t.divisor) t.maxPeriod = true)
    (hfail : periodFits (periodNum cfg next) (periodDen cfg next t.divisor) t.maxPeriod = false) (n : Note) :
    period cfg n c = some t.maxPeriod ↔ n.val ≤ last.val := by
  obtain ⟨-, hden, -⟩ := cfg.positive_of_wellFormed hw
  have hd : 0 < t.divisor := divisor_pos hw ht
  have hmax : 0 < t.maxPeriod := by rw [maxPeriod_eq ht]; split <;> decide
  rw [← le_praw_iff hden hd last hmax] at hfit
  rw [← Bool.not_eq_true, ← le_praw_iff hden hd next hmax] at hfail
  rw [period, ht, Option.map_some, Option.some_inj, tonePeriod, min_eq_right_iff]
  refine ⟨fun hn => ?_, fun hn => hfit.trans (praw_antitone hden hd hn)⟩
  by_contra hlt
  exact hfail (hn.trans (praw_antitone hden hd (Fin.le_def.2 (by omega))))

/-! #### The parameters of R158 -/

/-- The default parameters with the other sawtooth divisor that R158 speaks of. -/
def sawDivisor14Config : Config := { defaultConfig with sawDivisor := 14 }

theorem sawDivisor14Config_wellFormed : sawDivisor14Config.wellFormed = true := defaultConfig_wellFormed

theorem period_defaultConfig_ne_zero (n : Note) (c : Chan) : period defaultConfig n c ≠ some 0 := by
  intro h
  obtain ⟨t, ht, hzero⟩ := (period_eq_some_iff defaultConfig n c 0).1 h
  have hd : 0 < t.divisor := divisor_pos defaultConfig_wellFormed ht
  have hhighest : 0 < tonePeriod defaultConfig 127 t := by
    cases c <;> cases ht <;> decide
  have hle := tonePeriod_antitone (cfg := defaultConfig) (by decide) hd (Fin.le_last n)
  exact absurd (hhighest.trans_le hle) (by omega)

/-! #### The statements -/

/-- Settles O27: the search of R141 finds the largest fit, and the periods are R142's table. -/
theorem periodIsTheLargestFit : Obligations.PeriodIsTheLargestFit := by
  unfold Obligations.PeriodIsTheLargestFit
  intro cfg n hw
  obtain ⟨-, hden, -⟩ := cfg.positive_of_wellFormed hw
  refine ⟨fun d hd => ?_, fun c => ?_⟩
  · obtain ⟨hfit, hlargest⟩ := praw_spec cfg n d (periodDen_pos n hd hden)
    simp only [periodFits_iff] at hfit hlargest
    exact ⟨hlargest, hfit.symm⟩
  · cases c <;> rfl

/-- Settles O28: for every `k`, both sides are above `k` under the same condition. -/
theorem periodMatchesTheRealFormula : Obligations.PeriodMatchesTheRealFormula := by
  unfold Obligations.PeriodMatchesTheRealFormula
  intro cfg n d hw hd
  obtain ⟨-, hden, -⟩ := cfg.positive_of_wellFormed hw
  rw [praw_eq_round hden hd, Int.toNat_eq_max]
  rfl

/-- Settles O29: the test gets harder as the note rises, so each clamp is decided by two neighbouring notes and each smallest
period by note 127. -/
theorem periodIsMonotoneAndClamps : Obligations.PeriodIsMonotoneAndClamps := by
  unfold Obligations.PeriodIsMonotoneAndClamps
  have hw := defaultConfig_wellFormed
  have hbase {c : Chan} (ht : c.tone defaultConfig = some basePulseTone) (n : Note) :
      period defaultConfig n c = some 2047 ↔ n.val ≤ 32 :=
    period_eq_maxPeriod_iff hw ht (last := 32) (next := 33) rfl (by decide) (by decide) n
  have htriangle (n : Note) : period defaultConfig n .triangle = some 2047 ↔ n.val ≤ 20 :=
    period_eq_maxPeriod_iff hw (t := triangleTone) rfl (last := 20) (next := 21) rfl (by decide) (by decide) n
  have hexpansion {c : Chan} (ht : c.tone defaultConfig = some expPulseTone) (n : Note) :
      period defaultConfig n c = some 4095 ↔ n.val ≤ 20 :=
    period_eq_maxPeriod_iff hw ht (last := 20) (next := 21) rfl (by decide) (by decide) n
  have hsaw14 (n : Note) : period sawDivisor14Config n .expSawtooth = some 4095 ↔ n.val ≤ 23 :=
    period_eq_maxPeriod_iff sawDivisor14Config_wellFormed (t := sawtoothTone sawDivisor14Config) rfl (last := 23) (next := 24)
      rfl (by decide) (by decide) n
  refine ⟨fun cfg c m n p q hw hmn hp hq => ?_, fun n => ⟨hbase rfl n, hbase rfl n, htriangle n, hexpansion rfl n,
    hexpansion rfl n, hexpansion rfl n, hsaw14 n, period_defaultConfig_ne_zero n⟩, ?_, ?_, ?_⟩
  · obtain ⟨-, hden, -⟩ := cfg.positive_of_wellFormed hw
    obtain ⟨t, ht, rfl⟩ := (period_eq_some_iff cfg m c p).1 hp
    obtain ⟨u, hu, rfl⟩ := (period_eq_some_iff cfg n c q).1 hq
    obtain rfl : t = u := Option.some.inj (ht.symm.trans hu)
    exact ⟨tonePeriod_antitone hden (divisor_pos hw ht) hmn, maxPeriod_eq ht ▸ Nat.min_le_right _ _⟩
  · decide
  · decide
  · decide

end Sys2Proof.Machine

/-! ### The encoder: noise index, volume, sawtooth rate

The small formulas of R143 to R145 as numbers. -/

namespace Sys2Proof.Machine

theorem noiseIdx_toNat (n : Note) : (noiseIdx n).toNat = 15 - n.val / 8 := by
  have hclamp : clamp (15 - ((n.val / 8 : Nat) : Int)) 0 15 = ((15 - n.val / 8 : Nat) : Int) := by
    rw [clamp, if_neg (by omega), if_neg (by omega)]; omega
  rw [noiseIdx, hclamp, Int.toNat_natCast, BitVec.toNat_ofNat, Nat.mod_eq_of_lt (by omega)]

theorem sawRate_toNat (cfg : Config) (v : Velocity) :
    (sawRate cfg v).toNat = (vol4 v).toNat * 2 ^ cfg.sawRateShift % 64 := by
  have hmask (x : Nat) : x &&& 0x3F = x % 64 := Nat.and_two_pow_sub_one_eq_mod x 6
  rw [sawRate, hmask, BitVec.toNat_ofNat, Nat.mod_mod, Nat.shiftLeft_eq]

/-- Settles O30: the volume is `volumeNumber`, whose rounding division is within half a step of 15 v / 127. -/
theorem noiseIndexVolumeAndSawRate : Obligations.NoiseIndexVolumeAndSawRate := by
  unfold Obligations.NoiseIndexVolumeAndSawRate
  refine ⟨fun n => ?_, fun v => ⟨vol4_toNat v, ?_⟩, fun v w hvw => ?_, sawRate_toNat⟩
  · rw [noiseIdx_toNat]; omega
  · rw [vol4_toNat, volumeNumber]; omega
  · rw [vol4_toNat, vol4_toNat]
    have hle : v.val ≤ w.val := hvw
    exact Nat.div_le_div_right (by omega)

end Sys2Proof.Machine

/-! ### The encoder: the setters

A setter stores its operand and, while the channel is sounding, writes one byte. The store is a field's own; the write is
said once, for any channel and register. -/

namespace Sys2Proof.Machine

/-! #### The stored duty -/

theorem get_set_self {α : Type} {n : Nat} (v : Vector α n) (k : Fin n) (x : α) : (v.set k.val x k.isLt).get k = x :=
  Vector.getElem_set_self k.isLt

theorem get_set_of_ne {α : Type} {n : Nat} (v : Vector α n) {j k : Fin n} (x : α) (h : j ≠ k) :
    (v.set k.val x k.isLt).get j = v.get j :=
  Vector.getElem_set_ne k.isLt j.isLt (fun hval => h (Fin.ext hval.symm))

/-! #### The byte of a sounding channel -/

theorem writesExactly_busWrites (ws : List (Reg × Nat)) {s u : State} (htrace : u.trace = s.trace) (himg : u.img = s.img) :
    WritesExactly ws [] s (busWrites defaultConfig (asBytes ws) u) := by
  refine ⟨?_, fun r => ?_⟩
  · rw [busWrites_asBytes_trace, htrace, List.append_nil]
  · rw [busWrites_asBytes_image, State.image, himg]; rfl

/-- The write that ends a setter: one byte to a register when the channel is sounding, else nothing (R154, R155). -/
def writeIfSounding (cfg : Config) (c : Chan) (r : Reg) (v : Byte) (s : State) : State :=
  if s.sounding c then busWrite cfg r v s else s

theorem writeIfSounding_frame (cfg : Config) (c : Chan) (r : Reg) (v : Byte) (s : State) :
    writeIfSounding cfg c r v s =
      { s with img := (writeIfSounding cfg c r v s).img, trace := (writeIfSounding cfg c r v s).trace } := by
  unfold writeIfSounding
  split <;> rfl

@[simp] theorem writeIfSounding_duty (cfg : Config) (c : Chan) (r : Reg) (v : Byte) (s : State) :
    (writeIfSounding cfg c r v s).duty = s.duty := by rw [writeIfSounding_frame]

@[simp] theorem writeIfSounding_xduty (cfg : Config) (c : Chan) (r : Reg) (v : Byte) (s : State) :
    (writeIfSounding cfg c r v s).xduty = s.xduty := by rw [writeIfSounding_frame]

/-- From a state that differs in neither output nor image, the write is the only one and depends on the note alone. -/
theorem writesExactly_writeIfSounding (c : Chan) (r : Reg) (v : Nat) {s u : State} (hch : u.ch = s.ch)
    (htrace : u.trace = s.trace) (himg : u.img = s.img) :
    let t := writeIfSounding defaultConfig c r (BitVec.ofNat 8 v) u
    ((s.entry c).note = none → WritesExactly [] [] s t) ∧ ((s.entry c).note ≠ none → WritesExactly [(r, v)] [] s t) := by
  have hentry : u.entry c = s.entry c := congrArg (·.get c.index) hch
  have hsounding : u.sounding c = true ↔ (s.entry c).note ≠ none := hentry ▸ sounding_iff u c
  refine ⟨fun hnote => ?_, fun hnote => ?_⟩
  · rw [writeIfSounding, if_neg (by simp [hsounding, hnote])]
    exact writesExactly_busWrites [] htrace himg
  · rw [writeIfSounding, if_pos (hsounding.2 hnote)]
    exact writesExactly_busWrites [(r, v)] htrace himg

/-! #### The pulses -/

theorem pulseDutyChange_of_out_of_range (cfg : Config) {idx : BitVec 8} (level : BitVec 8) (s : State) (h : 1 < idx.toNat) :
    pulseDutyChange cfg idx level s = s := by
  rw [pulseDutyChange, pulseIndexOperand_none h]

theorem expPulseDutyChange_of_out_of_range (cfg : Config) {idx : BitVec 8} (level : BitVec 8) (s : State)
    (h : 1 < idx.toNat) : expPulseDutyChange cfg idx level s = s := by
  rw [expPulseDutyChange, pulseIndexOperand_none h]

theorem pulseDutyChange_of_index {idx : BitVec 8} (level : BitVec 8) (s : State) {k : Fin 2} (h : idx.toNat = k.val) :
    pulseDutyChange defaultConfig idx level s =
      writeIfSounding defaultConfig (basePulseOf k) (basePulseCtl k)
        (BitVec.ofNat 8 (64 * min level.toNat 3 + 48 + volumeNumber (s.entry (basePulseOf k)).vel))
        { s with duty := s.duty.set k.val (dutyOperand level) k.isLt } := by
  rw [← dutyOperand_toNat, ← pulseCtlByte_eq, pulseDutyChange, pulseIndexOperand_some h]
  simp only [get_set_self]
  rfl

theorem expPulseDutyChange_of_index {idx : BitVec 8} (level : BitVec 8) (s : State) {k : Fin 2} (h : idx.toNat = k.val) :
    expPulseDutyChange defaultConfig idx level s =
      writeIfSounding defaultConfig (expPulseOf k) (expPulseCtl k)
        (BitVec.ofNat 8 (16 * min level.toNat 7 + volumeNumber (s.entry (expPulseOf k)).vel))
        { s with xduty := s.xduty.set k.val (expDutyOperand level) k.isLt } := by
  rw [← expDutyOperand_toNat, ← expPulseCtlByte_eq, expPulseDutyChange, pulseIndexOperand_some h]
  simp only [get_set_self]
  rfl

/-! #### The noise channel -/

theorem noiseModeChange_of_silent (cfg : Config) (b : BitVec 8) {s : State} (h : (s.entry .noise).note = none) :
    noiseModeChange cfg b s = { s with noiseMode := boolOperand b } := by
  unfold noiseModeChange
  simp [h]

theorem noiseModeChange_of_sounding (b : BitVec 8) {s : State} {n : Note} (h : (s.entry .noise).note = some n) :
    noiseModeChange defaultConfig b s =
      busWrites defaultConfig (asBytes [(.noiPer, 128 * (boolOperand b).toNat + (15 - n.val / 8))])
        { s with noiseMode := boolOperand b } := by
  unfold noiseModeChange
  simp [h, noisePerByte_eq, asBytes, busWrite_eq_busWrites]

theorem boolOperand_bit (b : BitVec 8) : 128 * (boolOperand b).toNat = if b.toNat = 0 then 0 else 128 := by
  split
  · next h => rw [boolOperand_eq (e := false) (by simp [h])]; rfl
  · next h => rw [(boolOperand_iff b).2 h]; rfl

/-! #### The statements -/

/-- Settles O31: an index names no pulse, or the duty is stored and the write of a sounding pulse follows. -/
theorem setPulseDutyStoresAndRewrites : Obligations.SetPulseDutyStoresAndRewrites := by
  unfold Obligations.SetPulseDutyStoresAndRewrites
  intro s idx level hrun
  rw [exec_running _ hrun, effect]
  refine ⟨fun hidx => congrArg _ (pulseDutyChange_of_out_of_range _ level s hidx), fun k c r hidx hnames => ?_⟩
  obtain ⟨rfl, rfl⟩ : c = basePulseOf k ∧ r = basePulseCtl k := by
    rcases hnames with ⟨rfl, rfl, rfl⟩ | ⟨rfl, rfl, rfl⟩ <;> exact ⟨rfl, rfl⟩
  obtain ⟨hsilent, hsounding⟩ := writesExactly_writeIfSounding (basePulseOf k) (basePulseCtl k)
    (64 * min level.toNat 3 + 48 + volumeNumber (s.entry (basePulseOf k)).vel) (s := s)
    (u := { s with duty := s.duty.set k.val (dutyOperand level) k.isLt }) rfl rfl rfl
  rw [pulseDutyChange_of_index level s hidx]
  refine ⟨_, rfl, ?_, fun j hj => ?_, hsilent, hsounding, ?_⟩
  · rw [writeIfSounding_duty, get_set_self, dutyOperand_toNat]
  · rw [writeIfSounding_duty, get_set_of_ne _ _ hj]
  · rw [writeIfSounding_duty]; exact writeIfSounding_frame ..

/-- Settles O32: as SET_PULSE_DUTY, with the expansion pulses' duties, registers and byte. -/
theorem setExpPulseDutyStoresAndRewrites : Obligations.SetExpPulseDutyStoresAndRewrites := by
  unfold Obligations.SetExpPulseDutyStoresAndRewrites
  intro s idx level hrun
  rw [exec_running _ hrun, effect]
  refine ⟨fun hidx => congrArg _ (expPulseDutyChange_of_out_of_range _ level s hidx), fun k c r hidx hnames => ?_⟩
  obtain ⟨rfl, rfl⟩ : c = expPulseOf k ∧ r = expPulseCtl k := by
    rcases hnames with ⟨rfl, rfl, rfl⟩ | ⟨rfl, rfl, rfl⟩ <;> exact ⟨rfl, rfl⟩
  obtain ⟨hsilent, hsounding⟩ := writesExactly_writeIfSounding (expPulseOf k) (expPulseCtl k)
    (16 * min level.toNat 7 + volumeNumber (s.entry (expPulseOf k)).vel) (s := s)
    (u := { s with xduty := s.xduty.set k.val (expDutyOperand level) k.isLt }) rfl rfl rfl
  rw [expPulseDutyChange_of_index level s hidx]
  refine ⟨_, rfl, ?_, fun j hj => ?_, hsilent, hsounding, ?_⟩
  · rw [writeIfSounding_xduty, get_set_self, expDutyOperand_toNat]
  · rw [writeIfSounding_xduty, get_set_of_ne _ _ hj]
  · rw [writeIfSounding_xduty]; exact writeIfSounding_frame ..

/-- Settles O33: the held note decides the write; the mode is stored either way. -/
theorem setNoiseModeStoresAndRewrites : Obligations.SetNoiseModeStoresAndRewrites := by
  unfold Obligations.SetNoiseModeStoresAndRewrites
  intro s b hrun
  rw [exec_running _ hrun, effect]
  obtain ⟨ws, hchange, -, -⟩ := noiseModeChange_shape defaultConfig b s
  have hmode : (noiseModeChange defaultConfig b s).noiseMode = boolOperand b := by rw [hchange, busWrites_frame]
  refine ⟨_, rfl, hmode ▸ boolOperand_iff b, fun hnote => ?_, fun n hnote => ?_, ?_⟩
  · rw [noiseModeChange_of_silent _ b hnote]
    exact writesExactly_busWrites [] rfl rfl
  · rw [noiseModeChange_of_sounding b hnote, ← boolOperand_bit]
    exact writesExactly_busWrites _ rfl rfl
  · rw [hchange, busWrites_frame]

end Sys2Proof.Machine

/-! ### Channel enables and the expansion switch

Each command has one equation per exclusive case of its rule. A changed flag ends in one write, `writeEnable`, and switching
the unit off is three writes and three silenced voices; what each of these leaves is said once, field by field. -/

namespace Sys2Proof.Machine

/-! #### SET_CHANNEL_ENABLED: which case applies -/

theorem channelEnableChange_of_out_of_range (cfg : Config) {chn : BitVec 8} (b : BitVec 8) (s : State)
    (h : 7 < chn.toNat) : channelEnableChange cfg chn b s = s := by
  rw [channelEnableChange, channelOperand, ofIndex_none h]

theorem channelEnableChange_of_index (cfg : Config) {chn b : BitVec 8} (s : State) {c : Chan} {e : Bool}
    (hc : c.index.val = chn.toNat) (he : e = true ↔ b.toNat ≠ 0) :
    channelEnableChange cfg chn b s =
      if (s.entry c).enabled = e then s else writeEnable cfg c e (s.setEnabled c e) := by
  rw [channelEnableChange, channelOperand, ← hc, ofIndex_index, boolOperand_eq he]

/-! #### The write of a changed flag -/

theorem writeEnable_frame (cfg : Config) (c : Chan) (e : Bool) (s : State) :
    writeEnable cfg c e s = { s with img := (writeEnable cfg c e s).img, trace := (writeEnable cfg c e s).trace } := by
  unfold writeEnable
  split
  · rfl
  · split
    · split <;> rfl
    · rfl

@[simp] theorem writeEnable_entry (cfg : Config) (c d : Chan) (e : Bool) (s : State) :
    (writeEnable cfg c e s).entry d = s.entry d := by
  rw [writeEnable_frame]; rfl

theorem statusNumber_writeEnable (cfg : Config) (c : Chan) (e : Bool) (s : State) :
    statusNumber (writeEnable cfg c e s) = statusNumber s := by simp [statusNumber]

/-- A base channel's flag goes out in the whole status mask (R180). -/
theorem writeEnable_of_base {c : Chan} (hc : c.isBase = true) (e : Bool) (s : State) :
    writeEnable defaultConfig c e s = busWrites defaultConfig (asBytes [(.status, statusNumber s)]) s := by
  rw [writeEnable, if_pos hc, writeStatus, statusMask_eq, busWrite_eq_busWrites]; rfl

theorem writeEnable_of_unit_off (cfg : Config) {c : Chan} (hc : c.isBase = false) (e : Bool) {s : State}
    (hoff : s.expEn = false) : writeEnable cfg c e s = s := by
  rw [writeEnable, if_neg (by simp [hc]), if_neg (by simp [hoff])]

/-- An expansion channel's flag goes out beside the period bits that the image holds (R181). -/
theorem writeEnable_of_unit_on {c : Chan} (hc : c.isBase = false) {r : Reg} (hr : c.phi = some r) (e : Bool) {s : State}
    (hon : s.expEn = true) :
    writeEnable defaultConfig c e s =
      busWrites defaultConfig (asBytes [(r, (s.image r).toNat % 128 + 128 * e.toNat)]) s := by
  rw [writeEnable, if_neg (by simp [hc]), if_pos hon, hr]
  dsimp only
  rw [withEnableBit_eq, busWrite_eq_busWrites]; rfl

/-! #### SET_EXPANSION_ENABLED: which case applies -/

theorem expansionChange_eq (cfg : Config) {b : BitVec 8} {e : Bool} (s : State) (he : e = true ↔ b.toNat ≠ 0) :
    expansionChange cfg b s =
      if e = s.expEn then s else if e = true then { s with expEn := true } else expansionOff cfg s := by
  rw [expansionChange, boolOperand_eq he]

/-! #### Switching the unit off -/

theorem expansionOff_frame (cfg : Config) (s : State) :
    expansionOff cfg s =
      { s with ch := (expansionOff cfg s).ch, expEn := false, img := (expansionOff cfg s).img,
               trace := (expansionOff cfg s).trace } := by
  rw [expansionOff, busWrites_frame]; rfl

theorem expansionOff_entry (cfg : Config) (s : State) (c : Chan) :
    (expansionOff cfg s).entry c = if c.index.val ≤ 4 then s.entry c else releasedEntry (s.entry c) := by
  simp only [expansionOff, silence_entry, busWrites_entry]
  cases c <;> rfl

theorem expansionOff_trace (cfg : Config) (s : State) :
    (expansionOff cfg s).trace =
      s.trace ++ [.memWrite (cfg.addr .x1Phi) cfg.expOff, .memWrite (cfg.addr .x2Phi) cfg.expOff,
        .memWrite (cfg.addr .sawPhi) cfg.expOff] := by
  simp [expansionOff, silence]

theorem expansionOff_image (cfg : Config) (s : State) (r : Reg) :
    (expansionOff cfg s).image r = if r = .x1Phi ∨ r = .x2Phi ∨ r = .sawPhi then cfg.expOff else s.image r := by
  simp only [expansionOff, silence, State.image_setEntry, busWrites_image]
  cases r <;> rfl

/-! #### The statements -/

/-- Settles O34: the changed flag is stored, and which write follows depends on the channel's group and on the unit. -/
theorem setChannelEnabledWritesTheChange : Obligations.SetChannelEnabledWritesTheChange := by
  unfold Obligations.SetChannelEnabledWritesTheChange
  intro s chn b hrun
  rw [exec_running _ hrun, effect]
  refine ⟨fun hchn => congrArg _ (channelEnableChange_of_out_of_range _ b s hchn), fun c e hc he => ?_⟩
  rw [channelEnableChange_of_index _ s hc he]
  refine ⟨fun hsame => by rw [if_pos hsame], fun hchanged => ?_⟩
  rw [if_neg hchanged]
  refine ⟨_, rfl, ?_, fun d hd => ?_, fun hbase => ?_, fun hexp hoff => ?_, fun hon r hnames => ?_, ?_⟩
  · rw [writeEnable_entry, setEnabled_entry, if_pos rfl]
  · rw [writeEnable_entry, setEnabled_entry, if_neg hd]
  · rw [statusNumber_writeEnable, writeEnable_of_base (decide_eq_true hbase)]
    exact writesExactly_busWrites _ rfl rfl
  · rw [writeEnable_of_unit_off (s := s.setEnabled c e) _ (decide_eq_false hexp.not_ge) e hoff]
    exact writesExactly_busWrites [] rfl rfl
  · obtain ⟨hexp, hphi⟩ : c.isBase = false ∧ c.phi = some r := by
      rcases hnames with ⟨rfl, rfl⟩ | ⟨rfl, rfl⟩ | ⟨rfl, rfl⟩ <;> exact ⟨rfl, rfl⟩
    rw [writeEnable_of_unit_on (s := s.setEnabled c e) hexp hphi e hon]
    exact writesExactly_busWrites _ rfl rfl
  · rw [writeEnable_frame]; rfl

/-- Settles O35: the operand is the switch's value, or it turns the unit on, or it turns it off. -/
theorem setExpansionEnabledSwitchesTheUnit : Obligations.SetExpansionEnabledSwitchesTheUnit := by
  unfold Obligations.SetExpansionEnabledSwitchesTheUnit
  intro s b e hrun he
  rw [exec_running _ hrun, effect, expansionChange_eq _ s he]
  refine ⟨fun hsame => by rw [if_pos hsame.symm], fun hunit hflag => ?_, fun hunit hflag => ?_⟩
  · rw [if_neg (by simp [hunit, hflag]), if_pos hflag]
  · rw [if_neg (by simp [hunit, hflag]), if_neg (by simp [hflag])]
    exact ⟨_, rfl, rfl, expansionOff_entry _ s, expansionOff_trace _ s, expansionOff_image _ s, expansionOff_frame _ s⟩

end Sys2Proof.Machine

/-! ### The voice allocator: the targets of a note-on

What NOTE_ON runs, said once, and which channels each of the five modes hands to it (R205 to R210). -/

namespace Sys2Proof.Machine

/-! #### Frames of the allocator's commands -/

section Frames

variable {s t : State}

theorem KeepsSettings.fault_eq (h : KeepsSettings s t) : t.fault = s.fault := by
  obtain ⟨-, -, -, -, -, -, -, -, -, -, hfault, -⟩ := h.fields
  exact hfault

theorem KeepsSettings.mode_eq (h : KeepsSettings s t) : t.mode = s.mode := by
  obtain ⟨hmode, -⟩ := h.fields
  exact hmode

/-- The active set reads the order and the expansion switch only (R201). -/
theorem KeepsSettings.active_eq (h : KeepsSettings s t) : t.active = s.active := by
  obtain ⟨-, -, horder, -, -, -, hexp, -⟩ := h.fields
  rw [State.active, State.active, horder, hexp]

end Frames

/-! #### NOTE_ON over its targets -/

/-- NOTE_ON binds its targets in order and answers the first (R205), its operands clamped as R96 and R97 say. -/
theorem exec_noteOn (hint : BitVec 4) (note vel : BitVec 8) {s : State} (hrun : s.fault = false) :
    exec (.noteOn hint note vel) s = .next
      (respond (targets defaultConfig s hint (clampedNote note)).head?
        (bindAll defaultConfig (targets defaultConfig s hint (clampedNote note)) (clampedNote note)
          (clampedVelocity vel) s)) := by
  rw [exec_running _ hrun, ← noteOperand_eq, ← velocityOperand_eq]; rfl

/-- With one target, NOTE_ON is one bind and its response. -/
theorem exec_noteOn_single {hint : BitVec 4} {note : BitVec 8} (vel : BitVec 8) {s : State} {c : Chan}
    (hrun : s.fault = false) (htargets : targets defaultConfig s hint (clampedNote note) = [c]) :
    ∃ t, exec (.noteOn hint note vel) s = .next t ∧ BoundAt c (clampedNote note) (clampedVelocity vel) s t := by
  rw [exec_noteOn _ _ _ hrun, htargets]
  exact ⟨_, rfl, boundAt_bindVoice c _ _ s⟩

theorem keepsSettings_noteOn {hint : BitVec 4} {note vel : BitVec 8} {s t : State} (hrun : s.fault = false)
    (hexec : exec (.noteOn hint note vel) s = .next t) : KeepsSettings s t := by
  rw [exec_noteOn _ _ _ hrun] at hexec
  cases hexec
  exact (keepsSettings_bindAll _ _ _ s).trans (keepsSettings_emit _ _)

/-- Every target holds the voice afterwards, however often it is bound. -/
theorem bindAll_voice_of_mem (n : Note) (v : Velocity) {t : List Chan} {c : Chan} (hc : c ∈ t) (s : State) :
    ((bindAll defaultConfig t n v s).entry c).note = some n ∧ ((bindAll defaultConfig t n v s).entry c).vel = v := by
  induction t generalizing s with
  | nil => cases hc
  | cons d t ih =>
    rw [bindAll_cons]
    by_cases hmem : c ∈ t
    · exact ih hmem _
    · have hcd : c = d := (List.mem_cons.1 hc).resolve_right hmem
      rw [bindAll_entry_of_not_mem _ _ _ _ hmem, bindVoice_entry, if_pos hcd]
      exact ⟨rfl, rfl⟩

/-! #### Selections -/

theorem firstHolding_eq_none_iff (s : State) (g : List Chan) (note : Option Note) :
    firstHolding s g note = none ↔ ∀ d ∈ g, (s.entry d).note ≠ note := by
  simp [firstHolding]

theorem firstHolding_eq_some_iff (s : State) (g : List Chan) (note : Option Note) (c : Chan) :
    firstHolding s g note = some c ↔ FirstWith (fun d => (s.entry d).note = note) g c := by
  refine ⟨fun h => (find?_firstWith h).congr fun d => by simp, ?_⟩
  rintro ⟨before, after, hg, hc, hbefore⟩
  exact List.find?_eq_some_iff_append.2 ⟨decide_eq_true hc, before, after, hg, fun d hd => by simp [hbefore d hd]⟩

/-- RoundRobin's choice (R207): a channel that sounds the note, else a free one, else the oldest. -/
theorem roundRobinTargets_spec (s : State) (n : Note) (hactive : s.active ≠ []) :
    ∃ c, roundRobinTargets s n = [c] ∧ c ∈ s.active ∧
      ((∃ d ∈ s.active, (s.entry d).note = some n) → FirstWith (fun d => (s.entry d).note = some n) s.active c) ∧
      ((∀ d ∈ s.active, (s.entry d).note ≠ some n) → FreeOrOldest s s.active c) := by
  unfold roundRobinTargets
  cases hheld : firstHolding s s.active (some n) with
  | some c =>
    have hfirst := (firstHolding_eq_some_iff s s.active (some n) c).1 hheld
    refine ⟨c, rfl, hfirst.mem, fun _ => hfirst, fun hnone => ?_⟩
    rw [(firstHolding_eq_none_iff s s.active (some n)).2 hnone] at hheld
    cases hheld
  | none =>
    have hnone := (firstHolding_eq_none_iff s s.active (some n)).1 hheld
    obtain ⟨c, hc, hmem, hchoice⟩ := freeOrStolen_spec s s.active hactive
    exact ⟨c, by rw [hc]; rfl, hmem, fun ⟨d, hd, hn⟩ => absurd hn (hnone d hd), fun _ => hchoice⟩

/-- PitchSplit's choice (R208): a free channel of the note's group, else its oldest. -/
theorem pitchSplitTargets_spec (s : State) (n : Note) :
    ∃ c, pitchSplitTargets s n = [c] ∧ c ∈ (if n < s.split then bassGroup s else trebleGroup s) ∧
      FreeOrOldest s (if n < s.split then bassGroup s else trebleGroup s) c := by
  have hgroup : (if n < s.split then bassGroup s else trebleGroup s) ≠ [] := by
    split
    · exact List.cons_ne_nil _ _
    · exact List.cons_ne_nil _ _
  obtain ⟨c, hc, hmem, hchoice⟩ := freeOrStolen_spec s _ hgroup
  exact ⟨c, by rw [pitchSplitTargets, hc]; rfl, hmem, hchoice⟩

theorem pitchGroup_eq (s : State) (n : Note) :
    (if n < s.split then bassGroup s else trebleGroup s) =
      if n.val < s.split.val then (if s.expEn then [.triangle, .expSawtooth] else [.triangle])
      else (if s.expEn then [.pulse1, .pulse2, .expPulse1, .expPulse2] else [.pulse1, .pulse2]) := by
  unfold bassGroup trebleGroup
  cases s.expEn <;> rfl

/-! #### The active melodic set -/

section Active

variable {s : State} (h : Invariants s)

include h

/-- Pulse1 is always a member (R201). -/
theorem active_ne_nil : s.active ≠ [] :=
  List.ne_nil_of_mem ((mem_active_iff h .pulse1).2 ⟨rfl, .inl (by decide)⟩)

theorem active_nodup : s.active.Nodup :=
  (active_perm h).nodup_iff.2 (List.Nodup.filter _ (by decide))

theorem exists_head_active : ∃ c, s.active.head? = some c :=
  Option.ne_none_iff_exists'.1 fun hnone => active_ne_nil h (List.head?_eq_none_iff.1 hnone)

end Active

/-! #### The hint map -/

/-- The rows of R212: a hint, its primary and its fallback channel. -/
def hintRows : List (Nat × Nat × Nat) :=
  [(0, 0, 0), (1, 1, 1), (2, 2, 2), (3, 5, 0), (4, 6, 1), (5, 7, 2), (9, 3, 3)]

theorem hintRows_in_map : ∀ row ∈ hintRows, defaultHintMap (BitVec.ofNat 4 row.1) =
    (Chan.ofIndex row.2.1).bind fun primary => (Chan.ofIndex row.2.2).map fun fallback => (primary, fallback) := by
  decide

theorem defaultHintMap_of_row {hint : BitVec 4} {primary fallback : Chan}
    (hrow : (hint.toNat, primary.index.val, fallback.index.val) ∈ hintRows) :
    defaultHintMap hint = some (primary, fallback) := by
  simpa [ofIndex_index] using hintRows_in_map _ hrow

theorem defaultHintMap_absent {hint : BitVec 4} (h : hint.toNat ∈ [6, 7, 8, 10, 11, 12, 13, 14, 15]) :
    defaultHintMap hint = none := by
  have habsent : ∀ k ∈ [6, 7, 8, 10, 11, 12, 13, 14, 15], defaultHintMap (BitVec.ofNat 4 k) = none := by decide
  simpa using habsent _ h

theorem defaultHintMap_melodic : ∀ hint : BitVec 4, hint ≠ 9 →
    (defaultHintMap hint).all (fun entry => entry.1.isMelodic && entry.2.isMelodic) = true := by
  decide

/-- A hint with an entry has one target: the primary where it can sound, else the fallback (R209). -/
theorem midiSplitTargets_of_entry (s : State) {hint : BitVec 4} {primary fallback : Chan}
    (hentry : defaultHintMap hint = some (primary, fallback)) :
    midiSplitTargets defaultConfig s hint =
      [if primary.index.val < 5 ∨ s.expEn = true then primary else fallback] := by
  have hmap : defaultConfig.hintMap hint = some (primary, fallback) := hentry
  simp only [midiSplitTargets, hmap, Chan.isBase, Bool.or_eq_true, decide_eq_true_eq, Nat.lt_succ_iff]

/-! #### The channels a note-on reaches -/

/-- Where a target comes from. -/
theorem mem_targets_cases {cfg : Config} {s : State} {hint : BitVec 4} {n : Note} {c : Chan}
    (hc : c ∈ targets cfg s hint n) :
    c ∈ s.active ∨ (c ∈ bassGroup s ∨ c ∈ trebleGroup s) ∨
      (s.mode = .midiChannelSplit ∧ c ∈ midiSplitTargets cfg s hint) := by
  unfold targets at hc
  cases hmode : s.mode <;> rw [hmode] at hc
  case fixedMono => exact .inl (List.mem_of_mem_head? (Option.mem_toList.1 hc))
  case roundRobin =>
    obtain hf | ⟨-, hf⟩ := Option.or_eq_some_iff.1 (Option.mem_toList.1 hc)
    · exact .inl (firstHolding_mem hf)
    · exact .inl (freeOrStolen_mem hf)
  case pitchSplit =>
    have hg := freeOrStolen_mem (Option.mem_toList.1 hc)
    split at hg
    · exact .inr (.inl (.inl hg))
    · exact .inr (.inl (.inr hg))
  case midiChannelSplit => exact .inr (.inr ⟨rfl, hc⟩)
  case unison => exact .inl hc

theorem melodic_of_mem_pitchGroup {s : State} {c : Chan} (hc : c ∈ bassGroup s ∨ c ∈ trebleGroup s) :
    c.isMelodic = true := by
  cases he : s.expEn
  · simp [bassGroup, trebleGroup, he] at hc; rcases hc with rfl | rfl | rfl <;> rfl
  · simp [bassGroup, trebleGroup, he] at hc; rcases hc with (rfl | rfl) | rfl | rfl | rfl | rfl <;> rfl

theorem melodic_of_mem_midiSplitTargets {s : State} {hint : BitVec 4} (hhint : hint ≠ 9) {c : Chan}
    (hc : c ∈ midiSplitTargets defaultConfig s hint) : c.isMelodic = true := by
  have hmelodic := defaultHintMap_melodic hint hhint
  cases hentry : defaultHintMap hint with
  | none => simp [midiSplitTargets, show defaultConfig.hintMap hint = none from hentry] at hc
  | some entry =>
    obtain ⟨hprimary, hfallback⟩ : entry.1.isMelodic = true ∧ entry.2.isMelodic = true := by
      simpa [hentry] using hmelodic
    rw [midiSplitTargets_of_entry s hentry, List.mem_singleton] at hc
    rw [hc]
    split
    · exact hprimary
    · exact hfallback

/-- Only hint 9 of MidiChannelSplit reaches a channel that is not melodic (R219). -/
theorem melodic_of_mem_targets {s : State} (h : Invariants s) {hint : BitVec 4} {n : Note}
    (hhint : s.mode ≠ .midiChannelSplit ∨ hint ≠ 9) {c : Chan} (hc : c ∈ targets defaultConfig s hint n) :
    c.isMelodic = true := by
  obtain hactive | hgroup | ⟨hmode, hmidi⟩ := mem_targets_cases hc
  · exact ((mem_active_iff h c).1 hactive).1
  · exact melodic_of_mem_pitchGroup hgroup
  · exact melodic_of_mem_midiSplitTargets (hhint.resolve_left (absurd hmode)) hmidi

theorem defaultConfig_hintMapLegal : defaultConfig.hintMapLegal = true := by decide

/-- Settles O21: a channel changes only if it is a target, and then it takes the note; every target is one that R219
allows. -/
theorem noteOnReachesOnlyItsChannels : Obligations.NoteOnReachesOnlyItsChannels := by
  unfold Obligations.NoteOnReachesOnlyItsChannels
  intro hint note vel s t h hrun hexec
  rw [exec_noteOn _ _ _ hrun] at hexec
  cases hexec
  have hplayable {c : Chan} (hm : c ∈ targets defaultConfig s hint (clampedNote note)) : Playable s c :=
    playable_of_mem_targets defaultConfig_hintMapLegal h hm
  have hkept (c : Chan) := bindAll_entry_of_not_mem (targets defaultConfig s hint (clampedNote note))
    (clampedNote note) (clampedVelocity vel) s (d := c)
  refine ⟨hkept _ fun hm => ?_, fun hhint => hkept _ fun hm => ?_,
    fun hoff c hexp => hkept _ fun hm => ?_, fun c hchanged => ?_⟩
  · obtain ⟨hsample, -⟩ := hplayable hm
    exact hsample rfl
  · exact absurd (melodic_of_mem_targets h hhint hm) (by decide)
  · obtain ⟨-, hbase⟩ := hplayable hm
    exact absurd (hbase hoff) (by simp [hexp])
  · have hm : c ∈ targets defaultConfig s hint (clampedNote note) := by
      by_contra hm
      exact hchanged (hkept c hm)
    obtain ⟨hnote, -⟩ := bindAll_voice_of_mem (clampedNote note) (clampedVelocity vel) hm s
    exact hnote

/-! #### The five modes -/

/-- Settles O36: the one target is the head of the active set, which is never empty. -/
theorem fixedMonoBindsTheFirstActiveChannel : Obligations.FixedMonoBindsTheFirstActiveChannel := by
  unfold Obligations.FixedMonoBindsTheFirstActiveChannel
  intro s hint note vel h hrun hmode
  obtain ⟨c, hc⟩ := exists_head_active h
  have htargets : targets defaultConfig s hint (clampedNote note) = [c] := by
    rw [targets, hmode]; simp only [fixedMonoTargets, hc, Option.toList_some]
  obtain ⟨t, hexec, hbound⟩ := exec_noteOn_single vel hrun htargets
  exact ⟨c, t, hexec, hc, hbound⟩

/-- Settles O37: the one target is RoundRobin's choice. -/
theorem roundRobinRetriggersElseFreeElseSteals : Obligations.RoundRobinRetriggersElseFreeElseSteals := by
  unfold Obligations.RoundRobinRetriggersElseFreeElseSteals
  intro s hint note vel h hrun hmode
  obtain ⟨c, hc, hmem, hheld, hchoice⟩ := roundRobinTargets_spec s (clampedNote note) (active_ne_nil h)
  have htargets : targets defaultConfig s hint (clampedNote note) = [c] := by rw [targets, hmode]; exact hc
  obtain ⟨t, hexec, hbound⟩ := exec_noteOn_single vel hrun htargets
  exact ⟨c, t, hexec, hmem, hheld, hchoice, hbound⟩

/-- Settles O38: the one target is PitchSplit's choice in the note's group. -/
theorem pitchSplitStaysInItsGroup : Obligations.PitchSplitStaysInItsGroup := by
  unfold Obligations.PitchSplitStaysInItsGroup
  intro s hint note vel g hrun hmode hg
  obtain ⟨c, hc, hmem, hchoice⟩ := pitchSplitTargets_spec s (clampedNote note)
  rw [pitchGroup_eq, ← hg] at hmem hchoice
  have htargets : targets defaultConfig s hint (clampedNote note) = [c] := by rw [targets, hmode]; exact hc
  obtain ⟨t, hexec, hbound⟩ := exec_noteOn_single vel hrun htargets
  exact ⟨c, t, hexec, hmem, hchoice, hbound⟩

/-- Settles O39: a hint of R212 has one target, any other has none. -/
theorem midiChannelSplitFollowsTheHint : Obligations.MidiChannelSplitFollowsTheHint := by
  unfold Obligations.MidiChannelSplitFollowsTheHint
  intro s hint note vel hrun hmode
  refine ⟨fun primary fallback hrow => ?_, fun habsent => ?_⟩
  · refine exec_noteOn_single vel hrun ?_
    rw [targets, hmode]
    exact midiSplitTargets_of_entry s (defaultHintMap_of_row hrow)
  · have hmap : defaultConfig.hintMap hint = none := defaultHintMap_absent habsent
    have hnone : targets defaultConfig s hint (clampedNote note) = [] := by
      rw [targets, hmode]; simp only [midiSplitTargets, hmap]
    rw [exec_noteOn _ _ _ hrun, hnone]
    rfl

theorem writesExactly_respond {ws : List (Reg × Nat)} {s t : State} (h : WritesExactly ws [] s t) (c : Chan) :
    WritesExactly ws [.respond (BitVec.ofNat 8 c.index.val)] s (respond (some c) t) := by
  obtain ⟨htrace, himage⟩ := h
  refine ⟨?_, himage⟩
  rw [respond_eq, htrace, List.append_nil]; rfl

/-- Settles O40: the targets are the active set, whose members are distinct. -/
theorem unisonBindsEveryActiveChannel : Obligations.UnisonBindsEveryActiveChannel := by
  unfold Obligations.UnisonBindsEveryActiveChannel
  intro s hint note vel h hrun hmode
  obtain ⟨c, hc⟩ := exists_head_active h
  have htargets : targets defaultConfig s hint (clampedNote note) = s.active := by rw [targets, hmode]
  have hexec := exec_noteOn hint note vel hrun
  rw [htargets, hc] at hexec
  exact ⟨c, _, hexec, hc, bindAll_entry_getElem _ _ _ s (active_nodup h),
    fun d hd => bindAll_entry_of_not_mem _ _ _ s hd, bindAll_stampCounter _ _ _ s,
    writesExactly_respond (bindAll_writes _ _ _ s (active_nodup h)) c,
    (keepsSettings_bindAll _ _ _ s).trans (keepsSettings_emit _ _)⟩

/-! #### Retrigger -/

section Bound

variable {s t : State} {c : Chan} {n : Note} {v : Velocity}

theorem BoundAt.getLast?_trace (h : BoundAt c n v s t) :
    t.trace.getLast? = some (.respond (BitVec.ofNat 8 c.index.val)) := by
  obtain ⟨-, -, -, ⟨htrace, -⟩, -⟩ := h
  rw [htrace, List.getLast?_concat]

theorem BoundAt.note_eq (h : BoundAt c n v s t) : (t.entry c).note = some n := by
  obtain ⟨hentry, -⟩ := h
  rw [hentry]

theorem BoundAt.stamp_eq (h : BoundAt c n v s t) : (t.entry c).stamp = s.stampCounter + 1 := by
  obtain ⟨hentry, -⟩ := h
  rw [hentry]

theorem BoundAt.stampCounter_eq (h : BoundAt c n v s t) : t.stampCounter = s.stampCounter + 1 := by
  obtain ⟨-, -, hcounter, -⟩ := h
  exact hcounter

/-- A bind to the first holder, when there is one, leaves its channel the first holder: in front of it nothing held the
note and nothing has changed. -/
theorem BoundAt.firstHolding_eq (h : BoundAt c n v s t) {g : List Chan} (hc : c ∈ g)
    (hfirst : (∃ d ∈ g, (s.entry d).note = some n) → FirstWith (fun d => (s.entry d).note = some n) g c) :
    firstHolding t g (some n) = some c := by
  obtain ⟨before, after, hg, hbefore⟩ :
      ∃ before after, g = before ++ c :: after ∧ ∀ d ∈ before, d ≠ c ∧ (s.entry d).note ≠ some n := by
    by_cases hheld : ∃ d ∈ g, (s.entry d).note = some n
    · obtain ⟨before, after, hg, hcn, hbefore⟩ := hfirst hheld
      exact ⟨before, after, hg, fun d hd => ⟨fun he => hbefore d hd (he ▸ hcn), hbefore d hd⟩⟩
    · obtain ⟨before, after, hg, hnot⟩ := List.eq_append_cons_of_mem hc
      refine ⟨before, after, hg, fun d hd => ⟨ne_of_mem_of_not_mem hd hnot, fun hn => hheld ⟨d, ?_, hn⟩⟩⟩
      rw [hg]; exact List.mem_append_left _ hd
  refine (firstHolding_eq_some_iff t g (some n) c).2 ⟨before, after, hg, h.note_eq, fun d hd hn => ?_⟩
  obtain ⟨hne, hnot⟩ := hbefore d hd
  obtain ⟨-, hothers, -⟩ := h
  exact hnot (hothers d hne ▸ hn)

end Bound

/-- Settles O41: the first note-on leaves its channel the first that sounds the note, so the second takes it again. -/
theorem retriggerAnswersTheSameChannel : Obligations.RetriggerAnswersTheSameChannel := by
  unfold Obligations.RetriggerAnswersTheSameChannel
  intro s t u hint k note v w h hrun hmode hfirst hsecond
  have hkeeps := keepsSettings_noteOn hrun hfirst
  obtain ⟨c, _, hexec, hc, hheld, -, hbound⟩ := roundRobinRetriggersElseFreeElseSteals s hint note v h hrun hmode
  cases hexec.symm.trans hfirst
  have hfound := hbound.firstHolding_eq hc hheld
  obtain ⟨d, _, hexec', -, hretrigger, -, hbound'⟩ := roundRobinRetriggersElseFreeElseSteals t k note w
    (h.after_exec hfirst) (hkeeps.fault_eq.trans hrun) (hkeeps.mode_eq.trans hmode)
  cases hexec'.symm.trans hsecond
  have hagain := (firstHolding_eq_some_iff t t.active _ d).2
    (hretrigger ⟨c, hkeeps.active_eq ▸ hc, hbound.note_eq⟩)
  rw [hkeeps.active_eq, hfound] at hagain
  cases hagain
  exact ⟨c, hc, hbound.getLast?_trace, hbound'.getLast?_trace,
    by rw [hbound'.stamp_eq, hbound.stampCounter_eq, hbound.stamp_eq]⟩

/-! #### GET_CHANNEL -/

/-- GET_CHANNEL answers what the scan of the table finds (R215). -/
theorem exec_getChannel (note : BitVec 8) {s : State} (hrun : s.fault = false) :
    exec (.getChannel note) s = .next (respond (firstHolding s Chan.all (some (clampedNote note))) s) := by
  rw [exec_running _ hrun, ← noteOperand_eq]; rfl

/-- The scan runs in ascending index. -/
theorem exists_split_all (c : Chan) :
    ∃ before after, Chan.all = before ++ c :: after ∧ ∀ d ∈ before, d.index < c.index := by
  obtain ⟨before, after, hall⟩ := List.append_of_mem c.mem_all
  have hsorted : Chan.all.Pairwise (fun d e => d.index < e.index) := by decide
  rw [hall, List.pairwise_append] at hsorted
  obtain ⟨-, -, hlt⟩ := hsorted
  exact ⟨before, after, hall, fun d hd => hlt d hd c List.mem_cons_self⟩

/-- Settles O46: the scan finds nothing, or the first holder in ascending index. -/
theorem getChannelAnswersTheSmallestHolder : Obligations.GetChannelAnswersTheSmallestHolder := by
  unfold Obligations.GetChannelAnswersTheSmallestHolder
  intro s note hrun
  rw [exec_getChannel note hrun]
  refine ⟨fun hnone => ?_, fun c hc hlower => ?_⟩
  · rw [(firstHolding_eq_none_iff s Chan.all _).2 fun d _ => hnone d]; rfl
  · obtain ⟨before, after, hall, hbefore⟩ := exists_split_all c
    rw [(firstHolding_eq_some_iff s Chan.all _ c).2 ⟨before, after, hall, hc, fun d hd => hlower d (hbefore d hd)⟩]
    rfl

/-- Outside MidiChannelSplit a note-on always has a target. -/
theorem exists_mem_targets (cfg : Config) {s : State} (h : Invariants s) (hmode : s.mode ≠ .midiChannelSplit)
    (hint : BitVec 4) (n : Note) : ∃ c, c ∈ targets cfg s hint n := by
  unfold targets
  cases hm : s.mode with
  | fixedMono =>
    obtain ⟨c, hc⟩ := exists_head_active h
    exact ⟨c, Option.mem_toList.2 hc⟩
  | roundRobin =>
    obtain ⟨c, hc, -⟩ := roundRobinTargets_spec s n (active_ne_nil h)
    exact ⟨c, hc ▸ List.mem_singleton_self c⟩
  | pitchSplit =>
    obtain ⟨c, hc, -⟩ := pitchSplitTargets_spec s n
    exact ⟨c, hc ▸ List.mem_singleton_self c⟩
  | midiChannelSplit => exact absurd hm hmode
  | unison => exact List.exists_mem_of_ne_nil _ (active_ne_nil h)

/-- Settles O42: some target holds the voice, so the scan of GET_CHANNEL finds a holder. -/
theorem velocityZeroStillBinds : Obligations.VelocityZeroStillBinds := by
  unfold Obligations.VelocityZeroStillBinds
  intro s hint note h hrun hmode
  obtain ⟨c, hc⟩ := exists_mem_targets defaultConfig h hmode hint (clampedNote note)
  have hexec := exec_noteOn hint note 0 hrun
  obtain ⟨hnote, hvel⟩ := bindAll_voice_of_mem (clampedNote note) (clampedVelocity 0) hc s
  have hrun' := (keepsSettings_noteOn hrun hexec).fault_eq.trans hrun
  refine ⟨_, _, c, hexec, hnote, hvel, exec_getChannel note hrun', ?_⟩
  cases hfound : firstHolding _ Chan.all (some (clampedNote note)) with
  | none => exact absurd hnote ((firstHolding_eq_none_iff _ Chan.all _).1 hfound c c.mem_all)
  | some d =>
    obtain ⟨-, -, -, hd, -⟩ := (firstHolding_eq_some_iff _ Chan.all _ d).1 hfound
    exact ⟨d, rfl, hd⟩

end Sys2Proof.Machine

/-! ### The voice allocator: releases

NOTE_OFF and ALL_NOTES_OFF scan the table; `stopNote_released` and `stopAllNotes_released` say what a scan leaves (R213,
R214). -/

namespace Sys2Proof.Machine

theorem ReleasedExactly.note_eq {p : Chan → Bool} {s t : State} (h : ReleasedExactly p s t) (c : Chan) :
    (t.entry c).note = if p c then none else (s.entry c).note := by
  obtain ⟨hentry, -⟩ := h
  rw [hentry, apply_ite Entry.note]; rfl

/-- Settles O43: the scan of NOTE_OFF, on the clamped note. -/
theorem noteOffReleasesEveryHolder : Obligations.NoteOffReleasesEveryHolder := by
  unfold Obligations.NoteOffReleasesEveryHolder
  intro s hint note hrun
  exact ⟨_, exec_running _ hrun, noteOperand_eq note ▸ stopNote_released note s⟩

/-- Settles O44: NOTE_OFF silences every channel that holds the note, and binds nothing. -/
theorem noteOffAfterNoteOnLeavesNoHolder : Obligations.NoteOffAfterNoteOnLeavesNoHolder := by
  unfold Obligations.NoteOffAfterNoteOnLeavesNoHolder
  intro s t u hint k note vel hrun hon hoff c
  have hrun' : t.fault = false := (keepsSettings_noteOn hrun hon).fault_eq.trans hrun
  obtain ⟨_, hexec, hreleased⟩ := noteOffReleasesEveryHolder t k note hrun'
  cases hexec.symm.trans hoff
  rw [hreleased.note_eq c]
  split
  · exact ⟨nofun, fun _ => rfl⟩
  · next hheld =>
    have hnot : (t.entry c).note ≠ some (clampedNote note) := by simpa using hheld
    exact ⟨hnot, fun hn => absurd hn hnot⟩

theorem stopAllNotes_of_silent (cfg : Config) {s : State} (h : ∀ c : Chan, (s.entry c).note = none) :
    stopAllNotes cfg s = s :=
  List.foldl_fixed' (fun c => by simp [releaseIfSounding, State.sounding, h c]) Chan.all

/-- Settles O45: the scan of ALL_NOTES_OFF leaves every channel silent, and a scan of silent channels does nothing. -/
theorem allNotesOffReleasesAndIsIdempotent : Obligations.AllNotesOffReleasesAndIsIdempotent := by
  unfold Obligations.AllNotesOffReleasesAndIsIdempotent
  intro s hrun
  have hreleased := stopAllNotes_released s
  have hsounding : s.sounding = fun c => decide ((s.entry c).note ≠ none) := by
    funext c
    rw [Bool.eq_iff_iff, sounding_iff, decide_eq_true_iff]
  rw [hsounding] at hreleased
  have hsilent (c : Chan) : ((stopAllNotes defaultConfig s).entry c).note = none := by
    rw [hreleased.note_eq c]
    split
    · rfl
    · next hc => simpa using hc
  refine ⟨stopAllNotes defaultConfig s, exec_running _ hrun, hreleased, hsilent, ?_⟩
  obtain ⟨-, -, -, hkeeps⟩ := hreleased
  rw [exec_running _ (hkeeps.fault_eq.trans hrun)]
  exact congrArg _ (stopAllNotes_of_silent _ hsilent)

end Sys2Proof.Machine

/-! ### The voice allocator: mode, split point and order -/

namespace Sys2Proof.Machine

/-- Settles O47: a number up to 4 names a mode, a larger one none. -/
theorem setAllocModeSetsTheModeOnly : Obligations.SetAllocModeSetsTheModeOnly := by
  unfold Obligations.SetAllocModeSetsTheModeOnly
  intro s m hrun
  rw [exec_running _ hrun]
  refine ⟨fun mode hmode => ?_, fun hlarge => ?_⟩
  · rw [effect, allocModeChange, modeOperand, ← hmode, ofNumber_number]
  · rw [effect, allocModeChange, modeOperand, ofNumber_none hlarge]

/-- Settles O48: the operand is clamped as R96 says. -/
theorem setSplitPointSetsTheSplitOnly : Obligations.SetSplitPointSetsTheSplitOnly := by
  unfold Obligations.SetSplitPointSetsTheSplitOnly
  intro s note hrun
  rw [exec_running _ hrun, effect, splitPointChange, noteOperand_eq]

/-! #### SET_CHANNEL_ORDER -/

/-- The six entries of the immediate as numbers (R98). -/
def orderEntries (imm : BitVec 24) : List Nat := (List.range 6).map fun j => imm.toNat / 2 ^ (20 - 4 * j) % 16

theorem orderEntry_toNat (imm : BitVec 24) (j : Nat) :
    (orderEntry imm j).toNat = imm.toNat / 2 ^ (20 - 4 * j) % 16 := by
  rw [orderEntry, BitVec.extractLsb'_toNat, Nat.shiftRight_eq_div_pow]

/-- An order whose channels are those the entries number. -/
theorem map_index_eq_orderEntries_iff (imm : BitVec 24) (order : Vector Chan 6) :
    order.toList.map (fun c => c.index.val) = orderEntries imm ↔
      ∀ (j : Nat) (hj : j < 6), order[j].index.val = (orderEntry imm j).toNat := by
  simp [List.ext_getElem_iff, orderEntries, orderEntry_toNat]

theorem index_val_injective : Function.Injective fun c : Chan => c.index.val :=
  fun _ _ h => Chan.index_injective (Fin.ext h)

/-- The Channel Order an immediate names is the one with its entries, if they permute the melodic indices (R218). -/
theorem orderOperand_eq_some_iff_perm (imm : BitVec 24) (order : Vector Chan 6) :
    orderOperand imm = some order ↔
      order.toList.map (fun c => c.index.val) = orderEntries imm ∧ (orderEntries imm).Perm [0, 1, 2, 5, 6, 7] := by
  have hmelodic : Chan.melodic.map (fun c => c.index.val) = [0, 1, 2, 5, 6, 7] := rfl
  rw [← hmelodic]
  constructor
  · intro h
    obtain ⟨hentries, -⟩ := (orderOperand_eq_some imm order).1 h
    have hmap := (map_index_eq_orderEntries_iff imm order).2 fun j hj =>
      ((melodicEntry_eq_some _ _).1 (hentries j hj)).1
    exact ⟨hmap, hmap ▸ (orderOperand_permutes h).map _⟩
  · rintro ⟨hmap, hperm⟩
    rw [← hmap, List.map_perm_map_iff index_val_injective] at hperm
    have hindex := (map_index_eq_orderEntries_iff imm order).1 hmap
    refine (orderOperand_eq_some imm order).2 ⟨fun j hj => (melodicEntry_eq_some _ _).2 ⟨hindex j hj, ?_⟩, ?_⟩
    · exact (mem_melodic_iff _).1 (hperm.mem_iff.1 (Vector.mem_toList_iff.2 (Vector.getElem_mem hj)))
    · exact hperm.nodup_iff.2 (by decide)

/-- Entries that permute the melodic indices are those of an order: each is the index of a channel. -/
theorem exists_order_of_perm {imm : BitVec 24} (hperm : (orderEntries imm).Perm [0, 1, 2, 5, 6, 7]) :
    ∃ order : Vector Chan 6, order.toList.map (fun c => c.index.val) = orderEntries imm := by
  have hindices : ∀ k ∈ orderEntries imm, k ∈ Set.range fun c : Chan => c.index.val := by
    intro k hk
    obtain ⟨c, -, hc⟩ := List.mem_map.1 (show k ∈ Chan.melodic.map fun c => c.index.val from hperm.mem_iff.1 hk)
    exact ⟨c, hc⟩
  obtain ⟨order, horder⟩ : orderEntries imm ∈ Set.range (List.map fun c : Chan => c.index.val) := by
    rw [Set.range_list_map]; exact hindices
  have hlength : order.length = 6 := by
    rw [← List.length_map (fun c : Chan => c.index.val), horder, hperm.length_eq]; rfl
  exact ⟨⟨order.toArray, hlength⟩, horder⟩

/-- Settles O49: the operand names an order exactly when its entries permute the melodic indices. -/
theorem setChannelOrderTakesPermutationsOnly : Obligations.SetChannelOrderTakesPermutationsOnly := by
  unfold Obligations.SetChannelOrderTakesPermutationsOnly
  intro s imm hrun entries
  rw [exec_running _ hrun, effect, channelOrderChange]
  refine ⟨fun order horder hperm => ?_, exists_order_of_perm, fun hnot => ?_⟩
  · rw [(orderOperand_eq_some_iff_perm imm order).2 ⟨horder, hperm⟩]
  · cases h : orderOperand imm with
    | none => rfl
    | some order =>
      obtain ⟨-, hperm⟩ := (orderOperand_eq_some_iff_perm imm order).1 h
      exact absurd hperm hnot

end Sys2Proof.Machine

/-! ### Exceptions: the exception, its way out, and runs without it

A command changes `fault` only by taking the exception, and only a TICK on an uninitialised core takes it (R250); a halted core
waits for the reset pulse (R254, R255). So `running and initialised` is an invariant of every run that avoids `INIT 0`. -/

namespace Sys2Proof.Machine

/-! #### Every input has a next state -/

theorem exists_exec_eq_next (i : Instr) (s : State) : ∃ t, exec i s = .next t := by
  cases hfault : s.fault with
  | true => exact ⟨s, exec_halted i hfault⟩
  | false => exact ⟨_, exec_running i hfault⟩

theorem step_idle {s : State} (hinput : s.input = []) : step s = .next s := by
  unfold step
  rw [hinput]

theorem step_reset {s : State} {rest : List PortInput} (hinput : s.input = .reset :: rest) :
    step s = .next (hardwareReset { s with input := rest }) := by
  unfold step
  rw [hinput]

theorem exists_step_eq_next (s : State) : ∃ t, step s = .next t := by
  match hinput : s.input with
  | [] => exact ⟨s, step_idle hinput⟩
  | .reset :: rest => exact ⟨_, step_reset hinput⟩
  | .command w :: rest =>
    cases hdecode : decode w with
    | command i =>
      rw [step_command hinput hdecode]
      exact exists_exec_eq_next i _
    | reserved op => exact ⟨_, step_reserved hinput hdecode⟩

/-- Settles O8: idling, a command, a reserved word and a reset pulse each have a next state. -/
theorem everyStepHasANextState : Obligations.EveryStepHasANextState := by
  unfold Obligations.EveryStepHasANextState
  exact ⟨exists_step_eq_next, fun s => step_idle⟩

/-! #### Taking the exception -/

/-- Settles O11: the exception is `takeException`, and the `fault` test comes before every effect. -/
theorem notInitialisedHaltsTheCore : Obligations.NotInitialisedHaltsTheCore := by
  unfold Obligations.NotInitialisedHaltsTheCore
  exact ⟨fun s n => exec_tick_uninitialised n, fun s i => exec_halted i⟩

section Commands

variable {i : Instr} {s t : State} (hexec : exec i s = .next t)

include hexec

theorem exec_init_eq (hi : ∀ r, i ≠ .init r) : t.init = s.init := by
  obtain ⟨-, -, -, -, -, -, -, -, -, -, hinit, -⟩ := commandsWriteOnlyTheirState i s t hexec
  by_contra hne
  obtain ⟨r, hr⟩ := hinit (.inr hne)
  exact hi r hr

theorem exec_fault_eq (hi : ∀ n, i ≠ .tick n) : t.fault = s.fault := by
  obtain ⟨-, -, -, -, -, -, -, -, -, -, -, -, hfault, -⟩ := commandsWriteOnlyTheirState i s t hexec
  by_contra hne
  obtain ⟨n, hn⟩ := hfault hne
  exact hi n hn

/-- A command on a running core is a TICK of an uninitialised core and takes the exception, or it is not and leaves the core
running (R250). -/
theorem exec_exception_cases (hrun : s.fault = false) :
    ((s.init = false ∧ ∃ n, i = .tick n) ∧ t = takeException .notInitialised s) ∨
    (¬ (s.init = false ∧ ∃ n, i = .tick n) ∧ t.fault = false) := by
  by_cases htick : ∃ n, i = .tick n
  · obtain ⟨n, rfl⟩ := htick
    cases hinit : s.init with
    | false =>
      rw [exec_tick_uninitialised n hrun hinit] at hexec
      exact .inl ⟨⟨rfl, n, rfl⟩, (Host.Outcome.next.inj hexec).symm⟩
    | true =>
      rw [exec_tick_initialised n hrun hinit] at hexec
      obtain rfl := Host.Outcome.next.inj hexec
      exact .inr ⟨by simp, (sampleSteps_fault _ _ s).trans hrun⟩
  · have hkept : t.fault = s.fault := exec_fault_eq hexec fun n hn => htick ⟨n, hn⟩
    exact .inr ⟨fun h => htick h.2, hkept.trans hrun⟩

end Commands

/-- Settles O12: the command takes the exception or leaves the core running. -/
theorem onlyAnUninitialisedTickFaults : Obligations.OnlyAnUninitialisedTickFaults := by
  unfold Obligations.OnlyAnUninitialisedTickFaults
  intro i s t hrun hexec
  obtain ⟨hcause, rfl⟩ | ⟨hnone, hfault⟩ := exec_exception_cases hexec hrun
  · exact ⟨⟨fun _ => hcause, fun _ => rfl⟩, fun _ => ⟨rfl, rfl⟩⟩
  · simp [hfault, hnone]

/-! #### The way out -/

/-- What a step from a halted state can do: reset the core, or at most take an input and ignore it (R254, R255). -/
theorem step_halted_cases {s t : State} (hstep : step s = .next t) (hhalted : s.fault = true) :
    (∃ rest, s.input = .reset :: rest ∧ t = hardwareReset { s with input := rest }) ∨
    ((∀ rest, s.input ≠ .reset :: rest) ∧ t = { s with input := t.input }) := by
  obtain ⟨hinput, rfl⟩ | ⟨w, rest, i, hinput, -, hexec⟩ | ⟨w, rest, op, hinput, -, rfl⟩ | hreset := step_cases hstep
  · exact .inr ⟨by simp [hinput], rfl⟩
  · have hignored : exec i { s with input := rest } = .next { s with input := rest } := exec_halted i hhalted
    obtain rfl := Host.Outcome.next.inj (hignored.symm.trans hexec)
    exact .inr ⟨by simp [hinput], rfl⟩
  · exact .inr ⟨by simp [hinput], rfl⟩
  · exact .inl hreset

/-- Settles O13: a halted core is reset, or it ignores its input. -/
theorem onlyResetClearsTheFault : Obligations.OnlyResetClearsTheFault := by
  unfold Obligations.OnlyResetClearsTheFault
  intro s t hstep hhalted
  obtain ⟨rest, hinput, rfl⟩ | ⟨hinput, heq⟩ := step_halted_cases hstep hhalted
  · exact ⟨⟨fun _ => ⟨rest, hinput⟩, fun _ => rfl⟩, fun hfault => by cases hfault⟩
  · have hstill : t.fault = true := by rw [heq]; exact hhalted
    exact ⟨by simp [hstill, hinput], fun _ => heq⟩

/-! #### Runs without the exception -/

/-- Every command but `INIT 0` keeps a core initialised (R122, R38). -/
theorem exec_keeps_initialised {i : Instr} {s t : State} (hexec : exec i s = .next t) (hrun : s.fault = false)
    (hinit : s.init = true) (hi : i ≠ .init 0) : t.init = true := by
  by_cases hsetup : ∃ r, i = .init r
  · obtain ⟨r, rfl⟩ := hsetup
    have hr : r ≠ 0 := fun hzero => hi (congrArg Instr.init hzero)
    rw [exec_running _ hrun] at hexec
    obtain rfl := Host.Outcome.next.inj hexec
    obtain ⟨_, _, heq, -, -⟩ := initialiseCore_frame defaultConfig r s hr
    rw [effect, heq]
  · exact (exec_init_eq hexec fun r hr => hsetup ⟨r, hr⟩).trans hinit

/-- Settles O52, by induction on the list: each command keeps the core running and initialised, since only an uninitialised
TICK halts it and only `INIT 0` makes it uninitialised. -/
theorem runsWithoutInitZeroStaySafe : Obligations.RunsWithoutInitZeroStaySafe := by
  unfold Obligations.RunsWithoutInitZeroStaySafe
  intro is
  induction is with
  | nil => exact fun s hrun hinit _ => ⟨s, rfl, hrun, hinit⟩
  | cons i is ih =>
    intro s hrun hinit his
    obtain ⟨hi, his⟩ := List.forall_mem_cons.1 his
    obtain ⟨t, hexec⟩ := exists_exec_eq_next i s
    have hinit' : t.init = true := exec_keeps_initialised hexec hrun hinit hi
    have hrun' : t.running := by
      obtain ⟨⟨hstopped, -⟩, -⟩ | ⟨-, hfault⟩ := exec_exception_cases hexec hrun
      · rw [hinit] at hstopped; cases hstopped
      · exact hfault
    rw [execAll, hexec]
    exact ih t hrun' hinit' his

end Sys2Proof.Machine

/-! ### Reset and hazards: the reset pulse and the bound on bus writes

A command is a composition of updates that each send a bounded number of bus writes, and the bounds add up (R291): a scan
visits eight channels and writes one byte each, a note-on binds at most six targets and writes four bytes each. -/

namespace Sys2Proof.Machine

/-- Settles O10: the pulse is `hardwareReset`, which keeps only the trace and the waiting input (R280). -/
theorem resetPulseRestoresTheResetState : Obligations.ResetPulseRestoresTheResetState := by
  unfold Obligations.ResetPulseRestoresTheResetState
  intro s rest hinput
  exact ⟨_, step_reset hinput, hardwareReset_trace _, hardwareReset_input _, rfl⟩

/-! #### Counting bus writes -/

/-- `t` has sent more than `s`, and at most `k` bus writes among it. -/
def SendsAtMost (k : Nat) (s t : State) : Prop :=
  ∃ evs, t.trace = s.trace ++ evs ∧ evs.countP Event.isWrite ≤ k

section SendsAtMost

variable {k l : Nat} {s t u : State}

theorem sendsAtMost_of_trace_eq (h : t.trace = s.trace) : SendsAtMost k s t := ⟨[], by simp [h], Nat.zero_le k⟩

theorem SendsAtMost.mono (h : SendsAtMost k s t) (hkl : k ≤ l) : SendsAtMost l s t := by
  obtain ⟨evs, htrace, hcount⟩ := h
  exact ⟨evs, htrace, hcount.trans hkl⟩

theorem SendsAtMost.trans (h : SendsAtMost k s t) (h' : SendsAtMost l t u) : SendsAtMost (k + l) s u := by
  obtain ⟨es, htrace, hcount⟩ := h
  obtain ⟨fs, htrace', hcount'⟩ := h'
  refine ⟨es ++ fs, by rw [htrace', htrace, List.append_assoc], ?_⟩
  rw [List.countP_append]
  exact Nat.add_le_add hcount hcount'

/-- A last update that sends nothing. -/
theorem SendsAtMost.after_silent (h : SendsAtMost k s t) (htrace : u.trace = t.trace) : SendsAtMost k s u :=
  h.trans (l := 0) (sendsAtMost_of_trace_eq htrace)

/-- An update that may be skipped. -/
theorem sendsAtMost_ite {p : Prop} [Decidable p] (h : SendsAtMost k s t) : SendsAtMost k s (if p then t else s) := by
  split
  · exact h
  · exact sendsAtMost_of_trace_eq rfl

/-- A scan sends at most its length times what one visit may send. -/
theorem sendsAtMost_foldl {α : Type} {f : State → α → State} (hf : ∀ s a, SendsAtMost k s (f s a)) (as : List α)
    (s : State) : SendsAtMost (k * as.length) s (as.foldl f s) := by
  induction as generalizing s with
  | nil => exact sendsAtMost_of_trace_eq rfl
  | cons a as ih =>
    rw [List.foldl_cons, List.length_cons, Nat.mul_succ, Nat.add_comm]
    exact (hf s a).trans (ih _)

theorem sendsAtMost_busWrites (cfg : Config) {ws : List (Reg × Byte)} (hws : ws.length ≤ k) (s : State) :
    SendsAtMost k s (busWrites cfg ws s) :=
  ⟨_, busWrites_trace cfg ws s, List.countP_le_length.trans (by rwa [List.length_map])⟩

theorem sendsAtMost_respond (c : Option Chan) (s : State) : SendsAtMost k s (respond c s) := ⟨[_], rfl, Nat.zero_le k⟩

/-- The setters: an update that sends nothing, then at most `k` writes. -/
theorem sendsAtMost_of_busWrites {cfg : Config} {ws : List (Reg × Byte)} (hu : u = busWrites cfg ws t)
    (htrace : t.trace = s.trace) (hws : ws.length ≤ k) : SendsAtMost k s u := by
  obtain ⟨evs, hsent, hcount⟩ := sendsAtMost_busWrites cfg hws t
  exact ⟨evs, by rw [hu, hsent, htrace], hcount⟩

end SendsAtMost

/-! #### Bind and Release -/

theorem length_noteOnWrites_le (cfg : Config) (s : State) (n : Note) (v : Velocity) (c : Chan) :
    (noteOnWrites cfg s n v c).length ≤ 3 := by
  cases c <;> simp [noteOnWrites, basePulseOn, expansionOn]

theorem length_noteOffWrites_le (cfg : Config) (s : State) (c : Chan) : (noteOffWrites cfg s c).length ≤ 1 := by
  cases c <;> simp [noteOffWrites]

theorem sendsAtMost_evict (cfg : Config) (c : Chan) (s : State) : SendsAtMost 1 s (evict cfg c s) :=
  sendsAtMost_ite (sendsAtMost_busWrites cfg (length_noteOffWrites_le cfg s c) s)

/-- One write for the eviction, three for the voice (R202). -/
theorem sendsAtMost_bindVoice (cfg : Config) (c : Chan) (n : Note) (v : Velocity) (s : State) :
    SendsAtMost 4 s (bindVoice cfg c n v s) :=
  have hstamped : SendsAtMost 1 s (stampVoice c n v (evict cfg c s)) := (sendsAtMost_evict cfg c s).after_silent rfl
  hstamped.trans (sendsAtMost_busWrites cfg (length_noteOnWrites_le cfg _ n v c) _)

theorem sendsAtMost_releaseVoice (cfg : Config) (c : Chan) (s : State) : SendsAtMost 1 s (releaseVoice cfg c s) :=
  (sendsAtMost_busWrites cfg (length_noteOffWrites_le cfg s c) s).after_silent rfl

theorem sendsAtMost_releaseIfHolding (cfg : Config) (n : Note) (s : State) (c : Chan) :
    SendsAtMost 1 s (releaseIfHolding cfg n s c) :=
  sendsAtMost_ite (sendsAtMost_releaseVoice cfg c s)

theorem sendsAtMost_releaseIfSounding (cfg : Config) (s : State) (c : Chan) :
    SendsAtMost 1 s (releaseIfSounding cfg s c) :=
  sendsAtMost_ite (sendsAtMost_releaseVoice cfg c s)

/-! #### The commands -/

/-- Unison has the members of `order` at most, every other mode one target at most, in any state. -/
theorem length_targets_le (cfg : Config) (s : State) (hint : BitVec 4) (n : Note) :
    (targets cfg s hint n).length ≤ 6 := by
  have hone (o : Option Chan) : o.toList.length ≤ 6 := by cases o <;> simp
  unfold targets
  cases s.mode with
  | fixedMono => exact hone _
  | roundRobin => exact hone _
  | pitchSplit => exact hone _
  | midiChannelSplit =>
    dsimp only [midiSplitTargets]
    split
    · simp
    · simp
  | unison => exact (List.length_filter_le _ _).trans_eq Vector.length_toList

theorem sendsAtMost_startNote (cfg : Config) (hint : BitVec 4) (note vel : BitVec 8) (s : State) :
    SendsAtMost 24 s (startNote cfg hint note vel s) :=
  have hbind := sendsAtMost_foldl (fun u c => sendsAtMost_bindVoice cfg c (noteOperand note) (velocityOperand vel) u)
    (targets cfg s hint (noteOperand note)) s
  (hbind.mono (Nat.mul_le_mul_left 4 (length_targets_le cfg s hint _))).trans (l := 0)
    (sendsAtMost_respond _ _)

/-- A non-zero INIT writes STATUS once (R122). -/
theorem sendsAtMost_initialiseCore (cfg : Config) (sr : BitVec 24) (s : State) :
    SendsAtMost 1 s (initialiseCore cfg sr s) := by
  by_cases hsr : sr = 0
  · subst hsr; exact sendsAtMost_of_trace_eq rfl
  · obtain ⟨table, image, heq, -, -⟩ := initialiseCore_frame cfg sr s hsr
    rw [heq]
    exact ⟨_, rfl, Nat.le_refl 1⟩

theorem sendsAtMost_effect (cfg : Config) {i : Instr} (hi : ∀ n, i ≠ .tick n) (s : State) :
    SendsAtMost 24 s (effect cfg i s) := by
  cases i with
  | init sr => exact (sendsAtMost_initialiseCore cfg sr s).mono (by decide)
  | tick n => exact absurd rfl (hi n)
  | noteOn hint note vel => exact sendsAtMost_startNote cfg hint note vel s
  | noteOff _ note =>
    exact (sendsAtMost_foldl (sendsAtMost_releaseIfHolding cfg (noteOperand note)) Chan.all s).mono (by decide)
  | allNotesOff => exact (sendsAtMost_foldl (sendsAtMost_releaseIfSounding cfg) Chan.all s).mono (by decide)
  | getChannel note => exact sendsAtMost_respond _ s
  | setChannelEnabled chn b =>
    obtain ⟨table, ws, heq, hws, -⟩ := channelEnableChange_shape cfg chn b s
    exact (sendsAtMost_of_busWrites heq rfl hws).mono (by decide)
  | setPulseDuty idx level =>
    obtain ⟨duty, ws, heq, hws, -⟩ := pulseDutyChange_shape cfg idx level s
    exact (sendsAtMost_of_busWrites heq rfl hws).mono (by decide)
  | setNoiseMode b =>
    obtain ⟨ws, heq, hws, -⟩ := noiseModeChange_shape cfg b s
    exact (sendsAtMost_of_busWrites heq rfl hws).mono (by decide)
  | setExpansionEnabled b =>
    obtain ⟨table, ws, heq, hws, -⟩ := expansionChange_shape cfg b s
    have hsent := (sendsAtMost_busWrites cfg hws s).mono (by decide : 3 ≤ 24)
    rw [effect, heq]
    exact hsent.after_silent rfl
  | setExpPulseDuty idx level =>
    obtain ⟨xduty, ws, heq, hws, -⟩ := expPulseDutyChange_shape cfg idx level s
    exact (sendsAtMost_of_busWrites heq rfl hws).mono (by decide)
  | setAllocMode m =>
    obtain ⟨mode, heq⟩ := allocModeChange_frame m s
    rw [effect, heq]
    exact sendsAtMost_of_trace_eq rfl
  | setSplitPoint note => exact sendsAtMost_of_trace_eq rfl
  | setChannelOrder imm =>
    obtain ⟨order, heq⟩ := channelOrderChange_frame imm s
    rw [effect, heq]
    exact sendsAtMost_of_trace_eq rfl

theorem sendsAtMost_exec {i : Instr} (hi : ∀ n, i ≠ .tick n) {s t : State} (h : exec i s = .next t) :
    SendsAtMost 24 s t := by
  obtain ⟨-, rfl⟩ | ⟨-, rfl⟩ := (exec_next_iff i s t).1 h
  · exact sendsAtMost_of_trace_eq rfl
  · exact sendsAtMost_effect defaultConfig hi s

/-! #### The Unison note-on that reaches the bound -/

/-- Every event of a recipe is a bus write. -/
theorem countP_isWrite_writeEvents (ws : List (Reg × Nat)) : (writeEvents ws).countP Event.isWrite = ws.length := by
  rw [writeEvents, List.countP_map]
  exact List.countP_eq_length.2 fun _ _ => rfl

/-- Binding a sounding melodic channel writes one byte for the eviction and three for the voice (R202). -/
theorem length_bindBytes_of_sounding {s : State} {c : Chan} (hmelodic : c.isMelodic = true)
    (hsounding : (s.entry c).note ≠ none) (n : Note) (v : Velocity) :
    (evictBytes s c ++ onBytes s n v c).length = 4 := by
  rw [evictBytes, if_neg hsounding]
  cases c with
  | noise | sample => cases hmelodic
  | _ => rfl

/-- Over six sounding channels the binds of Unison write 6 · 4 bytes (R210). -/
theorem length_unisonBytes {s : State} (h : Invariants s) (hexp : s.expEn = true)
    (hsounding : ∀ c : Chan, c.isMelodic = true → (s.entry c).note ≠ none) (n : Note) (v : Velocity) :
    (s.active.flatMap fun c => evictBytes s c ++ onBytes s n v c).length = 24 := by
  obtain ⟨-, -, -, hon⟩ := activeSetHasThreeOrSixMembers s h
  obtain ⟨hsix, hmembers⟩ := hon hexp
  rw [List.length_flatMap, List.sum_eq_card_nsmul _ 4, List.length_map, hsix]
  · rfl
  · intro len hlen
    obtain ⟨c, hc, rfl⟩ := List.mem_map.1 hlen
    have hmelodic := (hmembers c).1 hc
    exact length_bindBytes_of_sounding hmelodic (hsounding c hmelodic) n v

/-- Settles O19: the bound is the sum over the updates of a command; the Unison case counts the writes that
`unisonBindsEveryActiveChannel` gives. -/
theorem atMostTwentyFourWritesPerCommand : Obligations.AtMostTwentyFourWritesPerCommand := by
  unfold Obligations.AtMostTwentyFourWritesPerCommand
  refine ⟨fun i s t hi hexec => sendsAtMost_exec hi hexec, ?_⟩
  intro hint note vel s t h hrun hmode hexp hsounding hexec
  obtain ⟨c, u, hexec', -, -, -, -, ⟨htrace, -⟩, -⟩ := unisonBindsEveryActiveChannel s hint note vel h hrun hmode
  obtain rfl := Host.Outcome.next.inj (hexec'.symm.trans hexec)
  refine ⟨_, htrace.trans (List.append_assoc _ _ _), ?_⟩
  rw [List.countP_append, countP_isWrite_writeEvents, length_unisonBytes h hexp hsounding]
  rfl

end Sys2Proof.Machine
